-- ==== Sys2Proof/Word.lean ====
section
/-! DEFINITION. The values the block handles: bytes, texts, selectors, the four fields the classifier hands on. -/

namespace Sys2Proof

/-- A byte, bit 7 the most significant (00_scope.md R7, R8). -/
abbrev Byte := BitVec 8

/-- A byte sequence that is text: ASCII codes in reading order (00_scope.md R7, 92 D8). -/
abbrev Text := List Byte

/-- A 3-bit operand selector, `reg` or `rm` (30_encoding.md R41, 40_register_name_lut.md R57). -/
abbrev Selector := BitVec 3

/-- The two bytes of an instruction written as one 16-bit pattern, byte 0 in bits 15 to 8. A notation
only: the block forms no 16-bit quantity (00_scope.md R10). -/
abbrev InstrWord := BitVec 16

/-- `256 * byte0 + byte1` (00_scope.md R10). -/
def InstrWord.ofBytes (b0 b1 : Byte) : InstrWord := b0 ++ b1

/-- The Operand Encoding Fields that pass from `opcode_classifier` to `instruction_formatter`
(41_opcode_classifier.md R70). The two flags are 1 bit each: `d` true means `reg` names the
destination, `w` true means word-size operands (30_encoding.md R42). -/
structure Fields where
  d   : Bool
  w   : Bool
  reg : Selector
  rm  : Selector
  deriving DecidableEq, Repr

end Sys2Proof
end

