-- ==== Sys2Proof/Machine/Failure.lean ====
section
/-! DEFINITION. The kinds of decode failure, the block's only exceptions, and their codes. -/

namespace Sys2Proof

/-- The failure kinds (60_exceptions.md R95). The spec's enumeration has a fifth member, `None`, which is
`Option.none` where a kind may be absent (10_state.md R17). -/
inductive FailureKind where
  /-- Byte 0 bits 7:2 are not `100010` (R96). -/
  | unsupportedOpcode
  /-- The opcode matched and byte 1 bits 7:6 are not `11` (R97). -/
  | unsupportedAddressingMode
  /-- The window is shorter than the two bytes an instruction needs (R98). -/
  | truncatedInstruction
  /-- A selector outside 0..7 was given to the Register Name Table; never raised in a run (R99). -/
  | lookupFailure
  deriving DecidableEq, Repr

/-- The 3-bit code of a failure outcome (10_state.md R21, 92 D7); codes 5 to 7 never occur. -/
def FailureKind.code : Option FailureKind → BitVec 3
  | none => 0#3
  | some .unsupportedOpcode => 1#3
  | some .unsupportedAddressingMode => 2#3
  | some .truncatedInstruction => 3#3
  | some .lookupFailure => 4#3

end Sys2Proof
end

