-- ==== Sys2Proof/Syntax.lean ====
section
/-! DEFINITION. The instructions the block accepts, one constructor per row of spec/opcode_table.json. -/

namespace Sys2Proof

/-- The four accepted instructions (30_encoding.md R46). Each carries the two selector fields of byte 1
in the order they stand there. The selectors are 3-bit values and all 64 pairs are accepted (R79), so
the types admit exactly the instructions the encoding has. -/
inductive Instr where
  /-- `MOV r/m8, r8`, byte 0 = 0x88 (43_mov_rm_r.md R79). -/
  | movRm8R8 (reg rm : Selector)
  /-- `MOV r/m16, r16`, byte 0 = 0x89 (43_mov_rm_r.md R80). -/
  | movRm16R16 (reg rm : Selector)
  /-- `MOV r8, r/m8`, byte 0 = 0x8A (43_mov_rm_r.md R81). -/
  | movR8Rm8 (reg rm : Selector)
  /-- `MOV r16, r/m16`, byte 0 = 0x8B (43_mov_rm_r.md R82). -/
  | movR16Rm16 (reg rm : Selector)
  deriving DecidableEq, Repr

end Sys2Proof
end

