-- ==== Sys2Proof/WellFormed.lean ====
section
/-! DEFINITION. What is checked before decoding. A term of `Instr` needs no check, its types carry both
bounds (a 3-bit selector is 0..7); the checks are on what the image supplies: the 16-bit word of an
instruction and the image as a whole. -/

namespace Sys2Proof

/-- Every `Instr` is well formed: `reg` and `rm` are in 0..7 by type (40_register_name_lut.md R57, R60).
The bounds are written out so that a reader sees what is being relied on. -/
def Instr.wellFormed : Instr → Bool
  | .movRm8R8 reg rm   => decide (reg.toNat < 8 ∧ rm.toNat < 8)
  | .movRm16R16 reg rm => decide (reg.toNat < 8 ∧ rm.toNat < 8)
  | .movR8Rm8 reg rm   => decide (reg.toNat < 8 ∧ rm.toNat < 8)
  | .movR16Rm16 reg rm => decide (reg.toNat < 8 ∧ rm.toNat < 8)

/-- An accepted instruction word: the opcode bits are `100010` and the mode bits `11`, in one mask
(30_encoding.md R49). Written from R49 alone, without the decoder, so that the two can be compared. -/
def InstrWord.accepted (word : InstrWord) : Bool := word &&& 0xFCC0#16 == 0x88C0#16

/-- A legal, complete instruction stream: consecutive accepted words and no byte left over. The block
does not require it of an image (00_scope.md R5); a run over exactly these images ends in `DONE`. -/
def imageAccepted : Text → Bool
  | [] => true
  | [_] => false
  | b0 :: b1 :: rest => (InstrWord.ofBytes b0 b1).accepted && imageAccepted rest

end Sys2Proof
end

