-- ==== Sys2Proof/Decode.lean ====
section
/-! DEFINITION. The sub-block `opcode_classifier` (41_opcode_classifier.md), the decoder from bytes to
`Instr` built on it, the encoder, and the reading of a word of spec/opcode_table.json. -/

namespace Sys2Proof

/-- The one recognised opcode pattern, binary `100010` (30_encoding.md R44). -/
def opcodePattern : BitVec 6 := 0b100010#6

/-- Register-direct addressing, binary `11` (30_encoding.md R45). -/
def modRegister : BitVec 2 := 0b11#2

/-- `op6 = b0[7:2]` (30_encoding.md R42). -/
def opcodeBits (b0 : Byte) : BitVec 6 := b0.extractLsb' 2 6

/-- `d = b0[1]` (30_encoding.md R42). -/
def directionBit (b0 : Byte) : Bool := b0.getLsbD 1

/-- `w = b0[0]` (30_encoding.md R42). -/
def widthBit (b0 : Byte) : Bool := b0.getLsbD 0

/-- `mod = b1[7:6]` (30_encoding.md R43). -/
def modBits (b1 : Byte) : BitVec 2 := b1.extractLsb' 6 2

/-- `reg = b1[5:3]` (30_encoding.md R43). -/
def regBits (b1 : Byte) : Selector := b1.extractLsb' 3 3

/-- `rm = b1[2:0]` (30_encoding.md R43). -/
def rmBits (b1 : Byte) : Selector := b1.extractLsb' 0 3

/-- The sub-block `opcode_classifier` at its ports: the first two bytes of the window, each present or
not (92 D3). The order of the tests is normative: opcode, length, mode (41_opcode_classifier.md R70,
60_exceptions.md R101). An absent byte 0 is the empty window (R64). -/
def opcodeClassifier (b0 b1 : Option Byte) : Except FailureKind Fields :=
  match b0 with
  | none => .error .truncatedInstruction
  | some b0 =>
    if opcodeBits b0 ≠ opcodePattern then .error .unsupportedOpcode
    else match b1 with
      | none => .error .truncatedInstruction
      | some b1 =>
        if modBits b1 ≠ modRegister then .error .unsupportedAddressingMode
        else .ok ⟨directionBit b0, widthBit b0, regBits b1, rmBits b1⟩

/-- `classify(window)` (41_opcode_classifier.md R70). -/
def classify (window : List Byte) : Except FailureKind Fields :=
  opcodeClassifier window[0]? window[1]?

/-- Which of the four instructions the flags select (30_encoding.md R46). -/
def Fields.instr (f : Fields) : Instr :=
  match f.d, f.w with
  | false, false => .movRm8R8 f.reg f.rm
  | false, true  => .movRm16R16 f.reg f.rm
  | true,  false => .movR8Rm8 f.reg f.rm
  | true,  true  => .movR16Rm16 f.reg f.rm

/-- The instruction at the head of a window, or the failure that rejects it. Total on every byte
sequence; only the first two bytes are looked at (41_opcode_classifier.md R70). -/
def decodeInstr (window : List Byte) : Except FailureKind Instr :=
  match classify window with
  | .ok f => .ok f.instr
  | .error k => .error k

/-- The four fields of an instruction (30_encoding.md R46, read from the instruction to its bits). -/
def Instr.fields : Instr → Fields
  | .movRm8R8 reg rm   => ⟨false, false, reg, rm⟩
  | .movRm16R16 reg rm => ⟨false, true, reg, rm⟩
  | .movR8Rm8 reg rm   => ⟨true, false, reg, rm⟩
  | .movR16Rm16 reg rm => ⟨true, true, reg, rm⟩

/-- Byte 0, `100010 d w` (30_encoding.md R41). -/
def Fields.byte0 (f : Fields) : Byte := opcodePattern ++ BitVec.ofBool f.d ++ BitVec.ofBool f.w

/-- Byte 1, `11 reg rm` (30_encoding.md R41). -/
def Fields.byte1 (f : Fields) : Byte := modRegister ++ f.reg ++ f.rm

/-- The two bytes of an instruction in stream order (30_encoding.md R41, 20_memory.md R31). -/
def encode (i : Instr) : List Byte := [i.fields.byte0, i.fields.byte1]

/-- The bytes, in stream order, of an instruction whose table word is `w`: the table's rows are 16-bit
numbers whose bits 15 to 8 are byte 0, the byte at the lower offset (opcode_table.json
"word_convention", 00_scope.md R10). Bits at and above `nbits` are 0. -/
def tableBytes (nbits w : Nat) : List Byte :=
  let v := BitVec.ofNat 16 (w % 2 ^ nbits)
  [v.extractLsb' 8 8, v.extractLsb' 0 8]

/-- What the decoder reads from a word of spec/opcode_table.json. -/
def decodeTableWord (nbits w : Nat) : Option Instr :=
  match decodeInstr (tableBytes nbits w) with
  | .ok i => some i
  | .error _ => none

end Sys2Proof
end

