-- ==== Sys2Proof/Machine/Ascii.lean ====
section
/-! DEFINITION. The constant texts the block emits, as ASCII codes (92 D8). -/

namespace Sys2Proof.Machine

/-- The header line `bits 16\n` (10_state.md R26, 70_reset_and_hazards.md R112). -/
def headerLine : Text := [0x62#8, 0x69#8, 0x74#8, 0x73#8, 0x20#8, 0x31#8, 0x36#8, 0x0A#8]

/-- `mov `: the mnemonic and one space (42_instruction_formatter.md R75, R76). -/
def mnemonicText : Text := [0x6D#8, 0x6F#8, 0x76#8, 0x20#8]

/-- `, `: a comma and one space (42_instruction_formatter.md R75, R76). -/
def separatorText : Text := [0x2C#8, 0x20#8]

/-- The newline, the single byte 0x0A (00_scope.md R7, 92 D8). -/
def newlineText : Text := [0x0A#8]

end Sys2Proof.Machine
end

