-- ==== Sys2Proof/Machine/Memory.lean ====
section
/-! DEFINITION. A byte space of the block (20_memory.md R27): the image space and the output space are
each one `Memory`. -/

namespace Sys2Proof.Machine

/-- A byte space, as (address, byte) cells. In canonical form the addresses are 0, 1, .., n-1 in that
order, n the length of the byte sequence the space holds (20_memory.md R27, R28, R33). -/
abbrev Memory := List Host.Cell

/-- What an address that is not listed reads as: nothing, "no other address exists" (20_memory.md R28). -/
def Memory.unlisted : Option Byte := none

/-- The byte at an address, if that address exists (`ImgRead`, 20_memory.md R28). -/
def Memory.read : Memory → Nat → Option Byte
  | [], _ => Memory.unlisted
  | c :: m, a => if c.1 = a then some c.2 else Memory.read m a

/-- The number of bytes in the space: `L` of the image, `length(out)` of the output (20_memory.md R27). -/
def Memory.size (m : Memory) : Nat := m.length

/-- The bytes in address order: the byte sequence the space holds. -/
def Memory.bytes (m : Memory) : Text := m.map (·.2)

/-- The cells of the bytes `t` laid down from address `a` upward, the first at the lowest address
(20_memory.md R31, R33). -/
def Memory.place (a : Nat) : Text → Memory
  | [] => []
  | b :: t => (a, b) :: Memory.place (a + 1) t

/-- The space that holds the byte sequence `t`, indexed from 0 (00_scope.md R7). -/
def Memory.ofBytes (t : Text) : Memory := Memory.place 0 t

/-- `OutAppend`, that is `MemWrite(length(m), length(t), t)`: the bytes of `t` at addresses
`length(m) .. length(m)+length(t)-1` (20_memory.md R33). -/
def Memory.append (m : Memory) (t : Text) : Memory := m ++ Memory.place m.size t

/-- The bytes at addresses `a, a+1, ..`, at most `n` of them, up to the first address that does not
exist. -/
def Memory.readFrom (m : Memory) : Nat → Nat → Text
  | _, 0 => []
  | a, n + 1 =>
    match m.read a with
    | none => []
    | some b => b :: Memory.readFrom m (a + 1) n

/-- The bytes of the space with the bytes `t` put at addresses `a, a+1, ..`. Should `a` lie past the end
of the space, the addresses between are filled with 0; no step calls this, it only sets a machine up
(log 9). -/
def Memory.overwrite (m : Memory) (a : Nat) (t : Text) : Memory :=
  Memory.ofBytes (m.bytes.take a ++ List.replicate (a - m.size) 0#8 ++ t ++ m.bytes.drop (a + t.length))

/-- The canonical form: the addresses are exactly 0, 1, .., n-1 in rising order. So equal byte sequences
are equal data. -/
abbrev Memory.wf (m : Memory) : Prop := m.map (·.1) = List.range m.length

end Sys2Proof.Machine
end

