-- ==== Sys2Proof/Machine/State.lean ====
section
/-! DEFINITION. The state of a run, the same with the run's parameter beside it for the host, the ways a
step can stop, and the state after reset. -/

namespace Sys2Proof.Machine

/-- The state of a run, the triple `(offset, out, fault)` and nothing else (10_state.md R24). The image is a
parameter of the run and no part of it (R13, R14). -/
structure RunState where
  /-- The decode offset, this block's program counter: unbounded, in bytes (R15, R19). -/
  offset : Nat
  /-- The Output Buffer in the output space, append only (R16, 20_memory.md R33). -/
  out    : Memory
  /-- The failure outcome of the run, `none` while no decode step has failed (R17). -/
  fault  : Option FailureKind
  deriving DecidableEq, Repr

/-- What the host's one-argument `step` carries: the parameter of the run beside the state of the run. The
step relation itself is `decodeStep image run`, which has the image as an argument and answers a `RunState`
(10_state.md R14, log 1). -/
structure State where
  /-- The parameter: the Binary Image in the image space, read only for the whole run (R14, 20_memory.md
  R28). -/
  image : Memory
  /-- The state of the run. -/
  run   : RunState
  deriving DecidableEq, Repr

/-- Why no step is taken. Both are stuck states of the spec, not failures of an instruction: a run that
is over has no step (44_stream_walker.md R89). -/
inductive Fault where
  /-- Raised by `step` in `DONE`: no failure and `offset >= L`. Safe: the block does nothing there, the
  model stops (log 3). -/
  | runDone
  /-- Raised by `step` in `FAILED`: the run ended earlier with this kind. Safe: the block does nothing
  there, the model stops (log 3). -/
  | runFailed (kind : FailureKind)
  deriving DecidableEq, Repr

/-- Refusals. -/
inductive Refusal where
  /-- Raised by `exec` for an instruction that has no meaning yet; safe. No instruction is in this case. -/
  | notModelled (mnemonic : String)
  deriving DecidableEq, Repr

/-- The start state of every run, `(0, "bits 16\n", None)` (10_state.md R26, 44_stream_walker.md R86). -/
def RunState.initial : RunState :=
  { offset := 0, out := Memory.ofBytes headerLine, fault := none }

/-- The state after reset, which is the start of a run (70_reset_and_hazards.md R111, R112). The image
beside it is the empty one (DESIGN CHOICE, log 2: the spec leaves it to the host). -/
def State.reset : State := { image := [], run := RunState.initial }

end Sys2Proof.Machine
end

