-- ==== Sys2Proof/Machine/Flags.lean ====
section
/-! DEFINITION. The status outputs. The block has no flags that an instruction writes or reads
(10_state.md R20); its status is a function of the state and of `L` (R21), never stored. -/

namespace Sys2Proof.Machine

/-- The phase of a run (10_state.md R21). -/
inductive Phase where
  | running
  | done
  | failed
  deriving DecidableEq, Repr

/-- The 2-bit code of a phase; code 3 never occurs (10_state.md R21). -/
def Phase.code : Phase → BitVec 2
  | .running => 0#2
  | .done => 1#2
  | .failed => 2#2

/-- `RUNNING` if `fault = None` and `offset < L`, `DONE` if `fault = None` and `offset >= L`, `FAILED`
if `fault` is a kind; `len` is `L` (10_state.md R21). -/
def RunState.phase (r : RunState) (len : Nat) : Phase :=
  match r.fault with
  | some _ => .failed
  | none => if r.offset < len then .running else .done

/-- The status outputs of the block (10_state.md R21, 92 D3). -/
structure Status where
  fault     : BitVec 3
  offset    : Nat
  done      : Bool
  failed    : Bool
  textValid : Bool
  deriving DecidableEq, Repr

/-- The status the host reads: `done` and `text_valid` in `DONE`, `failed` in `FAILED` (10_state.md R21). -/
def RunState.status (r : RunState) (len : Nat) : Status :=
  { fault := FailureKind.code r.fault, offset := r.offset, done := r.phase len == .done,
    failed := r.phase len == .failed, textValid := r.phase len == .done }

/-- The result of a run: the full text in `DONE`, the failure kind in `FAILED`, none while `RUNNING`
(44_stream_walker.md R90). In `FAILED` the text is not returned. -/
def RunState.result (r : RunState) (len : Nat) : Option (Except FailureKind Text) :=
  match r.phase len, r.fault with
  | .done, _ => some (.ok r.out.bytes)
  | .failed, some k => some (.error k)
  | _, _ => none

/-- The phase of a run over the image beside it. -/
abbrev State.phase (s : State) : Phase := s.run.phase s.image.size

/-- The status of a run over the image beside it. -/
abbrev State.status (s : State) : Status := s.run.status s.image.size

/-- The result of a run over the image beside it. -/
abbrev State.result (s : State) : Option (Except FailureKind Text) := s.run.result s.image.size

end Sys2Proof.Machine
end

