-- ==== Sys2Proof/Machine/Operands.lean ====
section
/-! DEFINITION. The sub-blocks `register_name_lut` (40_register_name_lut.md) and `instruction_formatter`
(42_instruction_formatter.md): every operand form the block has. -/

namespace Sys2Proof.Machine

/-- The Register Name Table as a read-only array of 16 entries of 16 bits, first character in the high
byte: entries 0 to 7 the byte names `al cl dl bl ah ch dh bh`, 8 to 15 the word names
`ax cx dx bx sp bp si di` (40_register_name_lut.md R58, R61). -/
def nameRom : Vector (BitVec 16) 16 :=
  #v[0x616C#16, 0x636C#16, 0x646C#16, 0x626C#16, 0x6168#16, 0x6368#16, 0x6468#16, 0x6268#16,
     0x6178#16, 0x6378#16, 0x6478#16, 0x6278#16, 0x7370#16, 0x6270#16, 0x7369#16, 0x6469#16]

/-- The packed Register Key `8*w + sel` (40_register_name_lut.md R61). -/
def packedKey (sel : Selector) (w : Bool) : Fin 16 :=
  ⟨8 * w.toNat + sel.toNat, by have := sel.isLt; cases w <;> simp <;> omega⟩

/-- The sub-block `register_name_lut` at its ports: 3 bits and 1 bit in, 16 bits out (R57, 92 D3). -/
def registerNameLut (sel : Selector) (w : Bool) : BitVec 16 := nameRom.get (packedKey sel w)

/-- `Resolve(sel, w)`, a text of two bytes (40_register_name_lut.md R57, R58). -/
def resolve (sel : Selector) (w : Bool) : Text :=
  [(registerNameLut sel w).extractLsb' 8 8, (registerNameLut sel w).extractLsb' 0 8]

/-- The source's own contract of the table, with a selector wider than 3 bits: `LookupFailure` outside
{0..7} (40_register_name_lut.md R60, 93 U2). No instruction reaches the failing branch, its selectors
are 3-bit values. -/
def resolveContract (sel : Nat) (w : Bool) : Except FailureKind Text :=
  if sel < 8 then .ok (resolve (BitVec.ofNat 3 sel) w) else .error .lookupFailure

/-- `"mov " ++ dst ++ ", " ++ src ++ "\n"` (42_instruction_formatter.md R75). -/
def movLine (dst src : Text) : Text := mnemonicText ++ dst ++ separatorText ++ src ++ newlineText

/-- The destination name (42_instruction_formatter.md R73, R74). -/
def destination (f : Fields) : Text := if f.d then resolve f.reg f.w else resolve f.rm f.w

/-- The source name (42_instruction_formatter.md R73, R74). -/
def source (f : Fields) : Text := if f.d then resolve f.rm f.w else resolve f.reg f.w

/-- The `line` output of `instruction_formatter`: `format(d, w, reg, rm)`, first character first
(42_instruction_formatter.md R72, R75). -/
def formatLine (f : Fields) : Text := movLine (destination f) (source f)

/-- The `consumed` output of `instruction_formatter`, the constant 2 (42_instruction_formatter.md R77). -/
def consumedBytes : Nat := 2

end Sys2Proof.Machine
end

