-- ==== Sys2Proof/Machine/Ops.lean ====
section
/-! DEFINITION. The shared operations: the start of a run, the window and the image reads, the success
and the failure of a decode step, and the Instruction Decoder's report. -/

namespace Sys2Proof.Machine

/-- The start-of-run event with the image the host presents, from any state (70_reset_and_hazards.md
R112, R116). An event of the host, not a decode step (log 10). -/
def State.start (_before : State) (image : Text) : State :=
  { image := Memory.ofBytes image, run := RunState.initial }

/-- The Instruction Window `image[offset..]` (10_state.md R23). -/
def RunState.window (r : RunState) (image : Memory) : Text :=
  image.readFrom r.offset (image.size - r.offset)

/-- Why no step is enabled over an image of `len` bytes, if none is (44_stream_walker.md R88, R89). -/
def RunState.halted (r : RunState) (len : Nat) : Option Fault :=
  match r.fault with
  | some k => some (.runFailed k)
  | none => if r.offset < len then none else some .runDone

/-- The image addresses the next decode step reads, in order: byte 0 always, byte 1 only if the opcode
matches and it exists (20_memory.md R29). None in a terminal state. -/
def RunState.imageReads (r : RunState) (image : Memory) : List Nat :=
  match r.halted image.size with
  | some _ => []
  | none =>
    if (image.read r.offset).map opcodeBits = some opcodePattern ∧ r.offset + 1 < image.size then
      [r.offset, r.offset + 1]
    else [r.offset]

/-- The Instruction Decoder's report: `ok(n, line)` or `fail(K)` (41_opcode_classifier.md R63), the
composition of the two sub-blocks (43_mov_rm_r.md R84). -/
def decode (window : List Byte) : Except FailureKind (Nat × Text) :=
  match classify window with
  | .ok f => .ok (consumedBytes, formatLine f)
  | .error k => .error k

/-- The bytes the next decode step appends, if it appends (`out_push`, `out_data`; 92 D3, 20_memory.md
R33). -/
def RunState.outPush (r : RunState) (image : Memory) : Option Text :=
  match r.halted image.size, decode (r.window image) with
  | none, .ok (_, line) => some line
  | _, _ => none

/-- The success of a decode step: the line is appended and the offset advanced by the consumed-byte
count; nothing else changes (44_stream_walker.md R87). -/
def RunState.retire (r : RunState) (line : Text) : RunState :=
  { r with out := r.out.append line, offset := r.offset + consumedBytes }

/-- Failure entry, `raise K`: the only write is `fault <- K`; nothing is appended, nothing consumed, no
other state is saved and control goes nowhere (60_exceptions.md R100). There is no return from a failure
(R102): the only way on is `State.start`. -/
def RunState.raise (r : RunState) (kind : FailureKind) : RunState :=
  { r with fault := some kind }

/-- The run's part of an outcome: what an instruction does to the run, the image dropped. -/
def runOutcome : Host.Outcome State Fault Refusal → Host.Outcome RunState Fault Refusal
  | .next t => .next t.run
  | .fault f => .fault f
  | .refused r => .refused r

/-- An outcome of a run with the run's parameter put back beside it. -/
def besideImage (image : Memory) : Host.Outcome RunState Fault Refusal → Host.Outcome State Fault Refusal
  | .next r => .next { image := image, run := r }
  | .fault f => .fault f
  | .refused r => .refused r

end Sys2Proof.Machine
end

