-- ==== Sys2Proof/Machine/Mov.lean ====
section
/-! DEFINITION. The meanings of the four MOV register-to-register instructions (43_mov_rm_r.md): the line
appended and the offset advanced by 2. The block prints instructions and executes none (00_scope.md R2). -/

namespace Sys2Proof.Machine

/-- `MOV r/m8, r8`: destination the byte name of `rm`, source the byte name of `reg` (43_mov_rm_r.md
R79). -/
def execMovRm8R8 (reg rm : Selector) (s : State) : Host.Outcome State Fault Refusal :=
  .next { s with run := s.run.retire (movLine (resolve rm false) (resolve reg false)) }

/-- `MOV r/m16, r16`: destination the word name of `rm`, source the word name of `reg` (43_mov_rm_r.md
R80). -/
def execMovRm16R16 (reg rm : Selector) (s : State) : Host.Outcome State Fault Refusal :=
  .next { s with run := s.run.retire (movLine (resolve rm true) (resolve reg true)) }

/-- `MOV r8, r/m8`: destination the byte name of `reg`, source the byte name of `rm` (43_mov_rm_r.md
R81). -/
def execMovR8Rm8 (reg rm : Selector) (s : State) : Host.Outcome State Fault Refusal :=
  .next { s with run := s.run.retire (movLine (resolve reg false) (resolve rm false)) }

/-- `MOV r16, r/m16`: destination the word name of `reg`, source the word name of `rm` (43_mov_rm_r.md
R82). -/
def execMovR16Rm16 (reg rm : Selector) (s : State) : Host.Outcome State Fault Refusal :=
  .next { s with run := s.run.retire (movLine (resolve reg true) (resolve rm true)) }

end Sys2Proof.Machine
end

