-- ==== Sys2Proof/Machine/Walker.lean ====
section
/-! DEFINITION. The step relation of the Stream Walker over the run's parameter and the run's state. -/

namespace Sys2Proof.Machine

/-- The decode step `step(image; offset, out, fault)` (44_stream_walker.md R87). The image is an argument
and the answer is a state of the run, so no step can change the image (10_state.md R14). Enabled when
`fault = None` and `offset < L` (R88), it decodes the window and either runs the instruction or takes the
failure. In a terminal state no step exists (R89) and the model stops by name (log 3). -/
def decodeStep (image : Memory) (r : RunState) : Host.Outcome RunState Fault Refusal :=
  match r.halted image.size with
  | some f => .fault f
  | none =>
    match decodeInstr (r.window image) with
    | .ok i => runOutcome (exec i { image := image, run := r })
    | .error k => .next (r.raise k)

end Sys2Proof.Machine
end

