-- ==== Sys2Proof/Machine/Step.lean ====
section
/-! DEFINITION. The decode step as the host calls it, and placing an instruction where the next step
fetches. -/

namespace Sys2Proof.Machine

/-- The decode step with the run's parameter carried along unchanged (44_stream_walker.md R87,
10_state.md R14, log 1). -/
def step (s : State) : Host.Outcome State Fault Refusal :=
  besideImage s.image (decodeStep s.image s.run)

/-- `s` with the instruction of the table word `w` in the image at the decode offset, in a run that has
not failed (log 9). -/
def State.withFetchWord (s : State) (nbits w : Nat) : State :=
  { image := s.image.overwrite s.run.offset (tableBytes nbits w), run := { s.run with fault := none } }

end Sys2Proof.Machine
end

