-- ==== Sys2Proof/Config.lean ====
section
/-! DEFINITION. What an implementation fixes. The block has no configuration options (00_scope.md R6)
and the spec leaves no value free, so there is no opaque constant here; the two bounds below are what a
finite implementation must meet, and no definition of the machine reads them. -/

namespace Sys2Proof.Config

/-- `L <= 2^AW - 1`: the condition an `AW`-bit offset register puts on the images it is given; a longer
image is refused by the host before `start` (00_scope.md R6, 92 D4). -/
abbrev offsetFits (aw len : Nat) : Prop := len ≤ 2 ^ aw - 1

/-- `8 + 11*floor(L/2)`, the size an implementation gives the Output Buffer (92 D9). -/
def outCapacity (len : Nat) : Nat := 8 + 11 * (len / 2)

end Sys2Proof.Config
end

