-- ==== Sys2Proof/Machine/Run.lean ====
section
/-! DEFINITION. A whole run of the Stream Walker (44_stream_walker.md): the image is its parameter, the
triple its state. -/

namespace Sys2Proof.Machine

/-- The state of the run after at most `n` decode steps; a terminal state stays as it is
(44_stream_walker.md R89). -/
def runSteps (image : Memory) : Nat → RunState → RunState
  | 0, r => r
  | n + 1, r =>
    match decodeStep image r with
    | .next t => runSteps image n t
    | .fault _ => r
    | .refused _ => r

/-- More steps than any run over an image of `len` bytes takes (44_stream_walker.md R94). -/
def stepBound (len : Nat) : Nat := len / 2 + 1

/-- The last state of the run over `image`. -/
def finalState (image : Text) : RunState :=
  runSteps (Memory.ofBytes image) (stepBound image.length) RunState.initial

/-- `disassemble(image)`: the full text, or the failure kind (44_stream_walker.md R85, R90). -/
def disassemble (image : Text) : Option (Except FailureKind Text) :=
  (finalState image).result image.length

end Sys2Proof.Machine
end

