-- ==== Sys2Proof/Safety.lean ====
section
/-! DEFINITION. The terms claims are stated in: the states of a run, and the invariants of
44_stream_walker.md R92. -/

namespace Sys2Proof

/-- The line an instruction prints. -/
def Instr.line (i : Instr) : Text := Machine.formatLine i.fields

/-- The other encoding of the same text: `d` flipped, `reg` and `rm` exchanged (43_mov_rm_r.md R83). -/
def Instr.mirror : Instr → Instr
  | .movRm8R8 reg rm   => .movR8Rm8 rm reg
  | .movRm16R16 reg rm => .movR16Rm16 rm reg
  | .movR8Rm8 reg rm   => .movRm8R8 rm reg
  | .movR16Rm16 reg rm => .movRm16R16 rm reg

end Sys2Proof

namespace Sys2Proof.Machine

/-- The line the instruction at image offset `o` prints (`format` of its fields), or nothing where no
instruction is accepted (42_instruction_formatter.md R75). -/
def lineAt (image : Text) (o : Nat) : Text :=
  match classify (image.drop o) with
  | .ok f => formatLine f
  | .error _ => []

/-- The lines of instructions 1 to `k` of an image in order; instruction `k` stands at image offset
`2(k-1)` (44_stream_walker.md R88, R92). -/
def linesUpTo (image : Text) : Nat → Text
  | 0 => []
  | k + 1 => linesUpTo image k ++ lineAt image (2 * k)

/-- The two bytes at image offset `o` exist and form an accepted word (30_encoding.md R49). -/
def wordAcceptedAt (image : Text) (o : Nat) : Prop :=
  ∃ b0 b1, image[o]? = some b0 ∧ image[o + 1]? = some b1 ∧ (InstrWord.ofBytes b0 b1).accepted = true

/-- `Reachable image k r`: the run over `image` reaches `r`, and `k` of its decode steps so far succeeded.
The states of a run are the start state and what decode steps lead to (44_stream_walker.md R86, R87). -/
inductive Reachable (image : Text) : Nat → RunState → Prop where
  | start : Reachable image 0 RunState.initial
  | decoded {k : Nat} {r t : RunState} : Reachable image k r →
      decodeStep (Memory.ofBytes image) r = .next t → t.fault = none → Reachable image (k + 1) t
  | failed {k : Nat} {r t : RunState} : Reachable image k r →
      decodeStep (Memory.ofBytes image) r = .next t → t.fault ≠ none → Reachable image k t

/-- What holds of the parameter and in every state of every run (44_stream_walker.md R92). The number `k`
of instructions decoded so far is `offset / 2`. -/
structure Inv (image : Memory) (r : RunState) : Prop where
  /-- Both byte spaces are in canonical form. -/
  imageWf : image.wf
  outWf : r.out.wf
  /-- (a) `offset` is even. -/
  offsetEven : r.offset % 2 = 0
  /-- (b) `offset <= L`. -/
  offsetLe : r.offset ≤ image.size
  /-- (c) `length(out) = 8 + 11k`. -/
  outSize : r.out.size = 8 + 11 * (r.offset / 2)
  /-- (d) `out` is the header followed by the lines of instructions 1 to k in order. -/
  outBytes : r.out.bytes = headerLine ++ linesUpTo image.bytes (r.offset / 2)
  /-- (e) a failure is the one the decoder reports at `offset`. -/
  faultIsDecodes : ∀ kind, r.fault = some kind → decode (r.window image) = .error kind
  /-- a run fails inside the image only. -/
  faultInside : r.fault ≠ none → r.offset < image.size
  /-- (f) the words before `offset` are all accepted. -/
  wordsAccepted : ∀ j, j < r.offset / 2 → wordAcceptedAt image.bytes (2 * j)

/-- A safe run ends with its text: the final state is `DONE`. -/
def SafeRun (image : Text) : Prop := (finalState image).phase image.length = .done

end Sys2Proof.Machine
end

