-- ==== Sys2Proof/Certificates/Slice0/Obligations.lean ====
section
/-! DEFINITION. The statements about the model, for the provers. Where a clause rests on a choice of the
model and not on a rule of the spec, its docstring names the log entry. Where it rests on an inference the
spec marks as its own (`[derived: ..]` in the rule), the docstring says so; such a statement has basis
'derived' in OBLIGATIONS.json. -/

open Sys2Proof Sys2Proof.Machine

/-! ### Start of a run -/

/-- 70_reset_and_hazards.md R112: the start event, from any state and for any image. -/
def Obligations.StartEventSetsStartState : Prop :=
  ∀ (s : State) (image : Text),
    (s.start image).run.offset = 0 ∧
    (s.start image).run.out =
      Memory.ofBytes [0x62#8, 0x69#8, 0x74#8, 0x73#8, 0x20#8, 0x31#8, 0x36#8, 0x0A#8] ∧
    (s.start image).run.fault = none ∧
    (s.start image).image.bytes = image ∧ (s.start image).image.wf ∧ (s.start image).run.out.wf ∧
    (0 < image.length → (s.start image).phase = .running) ∧
    (image.length = 0 → (s.start image).phase = .done)

/-- A new start carries nothing over: the run that follows is the same whatever the state before
(70_reset_and_hazards.md section 2). -/
def Obligations.RunsDoNotDependOnEarlierRuns : Prop :=
  ∀ (s s' : State) (image : Text) (n : Nat),
    runSteps (s.start image).image n (s.start image).run =
      runSteps (s'.start image).image n (s'.start image).run ∧
    (stepBound image.length ≤ n →
      runSteps (s.start image).image n (s.start image).run = finalState image)

/-- The model's choice of the image after reset (log 2) and of the name of the stop in `DONE` (log 3):
reset is the start of a run over the empty image, and no step leaves it. -/
def Obligations.ResetIsStartOverEmptyImage : Prop :=
  (∀ s : State, s.start [] = State.reset) ∧ State.reset.phase = .done ∧
    step State.reset = .fault .runDone ∧ State.reset.image.wf ∧ State.reset.run.out.wf

/-! ### register_name_lut -/

/-- 40_register_name_lut.md R58: the 16 entries, byte for byte. -/
def Obligations.RegisterNameTableEntries : Prop :=
  resolve 0#3 false = [0x61#8, 0x6C#8] ∧ resolve 1#3 false = [0x63#8, 0x6C#8] ∧
  resolve 2#3 false = [0x64#8, 0x6C#8] ∧ resolve 3#3 false = [0x62#8, 0x6C#8] ∧
  resolve 4#3 false = [0x61#8, 0x68#8] ∧ resolve 5#3 false = [0x63#8, 0x68#8] ∧
  resolve 6#3 false = [0x64#8, 0x68#8] ∧ resolve 7#3 false = [0x62#8, 0x68#8] ∧
  resolve 0#3 true = [0x61#8, 0x78#8] ∧ resolve 1#3 true = [0x63#8, 0x78#8] ∧
  resolve 2#3 true = [0x64#8, 0x78#8] ∧ resolve 3#3 true = [0x62#8, 0x78#8] ∧
  resolve 4#3 true = [0x73#8, 0x70#8] ∧ resolve 5#3 true = [0x62#8, 0x70#8] ∧
  resolve 6#3 true = [0x73#8, 0x69#8] ∧ resolve 7#3 true = [0x64#8, 0x69#8]

/-- 40_register_name_lut.md R59, whose two-character length the spec derives from the table: every lookup
succeeds with a name of two characters, and from a name the key can be recovered. -/
def Obligations.RegisterNamesTotalAndDistinct : Prop :=
  (∀ (sel : Selector) (w : Bool), (resolve sel w).length = 2) ∧
  (∀ (sel sel' : Selector) (w w' : Bool), resolve sel w = resolve sel' w' → sel = sel' ∧ w = w')

/-- 40_register_name_lut.md R60, the spec's own inference (`[derived: from 40_register_name_lut.md rule R57
and 10_state.md rule R23]`): the source's contract fails exactly outside {0..7}; with the 3-bit
selectors of the block the failure is never raised, by no window and in no state of a run. -/
def Obligations.LookupFailureNeverRaised : Prop :=
  (∀ (sel : Selector) (w : Bool), resolveContract sel.toNat w = .ok (resolve sel w)) ∧
  (∀ (sel : Nat) (w : Bool), 8 ≤ sel → resolveContract sel w = .error .lookupFailure) ∧
  (∀ window : List Byte, decode window ≠ .error .lookupFailure) ∧
  (∀ (image : Text) (k : Nat) (r : RunState), Reachable image k r → r.fault ≠ some .lookupFailure)

/-! ### Encoding -/

/-- 30_encoding.md R44, whose forms on the whole byte the spec derives: the opcode match, as the test the
decoder makes, as a mask and as the list of first bytes. -/
def Obligations.OpcodeMatchIsFourFirstBytes : Prop :=
  ∀ b0 : Byte,
    (opcodeBits b0 = 0b100010#6 ↔ ∀ rest, decodeInstr (b0 :: rest) ≠ .error .unsupportedOpcode) ∧
    (opcodeBits b0 = 0b100010#6 ↔ b0 &&& 0xFC#8 = 0x88#8) ∧
    (opcodeBits b0 = 0b100010#6 ↔ b0 = 0x88#8 ∨ b0 = 0x89#8 ∨ b0 = 0x8A#8 ∨ b0 = 0x8B#8)

/-- 30_encoding.md R45, whose forms on the whole byte the spec derives: after the opcode matched, the mode
alone decides acceptance. -/
def Obligations.ModeMatchDecidesAcceptance : Prop :=
  ∀ (b0 b1 : Byte) (rest : List Byte), opcodeBits b0 = 0b100010#6 →
    ((∃ i, decodeInstr (b0 :: b1 :: rest) = .ok i) ↔ modBits b1 = 0b11#2) ∧
    (modBits b1 = 0b11#2 ↔ b1 &&& 0xC0#8 = 0xC0#8) ∧
    (modBits b1 = 0b11#2 ↔ 0xC0 ≤ b1.toNat)

/-- 30_encoding.md R49 (`[derived: from rule R44 and rule R45]`): the accepted code space, 4 first bytes
times 64 second bytes. -/
def Obligations.AcceptedCodeSpace : Prop :=
  ∀ (b0 b1 : Byte) (rest : List Byte),
    ((∃ n line, decode (b0 :: b1 :: rest) = .ok (n, line)) ↔
      InstrWord.ofBytes b0 b1 &&& 0xFCC0#16 = 0x88C0#16) ∧
    (InstrWord.ofBytes b0 b1 &&& 0xFCC0#16 = 0x88C0#16 ↔
      b0 ∈ [0x88#8, 0x89#8, 0x8A#8, 0x8B#8] ∧ 0xC0 ≤ b1.toNat ∧ b1.toNat < 0xC0 + 64)

/-- 30_encoding.md R52: the complete partition of inputs. -/
def Obligations.InputPartition : Prop :=
  ∀ (b0 b1 : Byte) (rest : List Byte),
    (opcodeBits b0 ≠ 0b100010#6 →
      decode (b0 :: rest) = .error .unsupportedOpcode) ∧
    (opcodeBits b0 = 0b100010#6 → decode [b0] = .error .truncatedInstruction) ∧
    (opcodeBits b0 = 0b100010#6 → modBits b1 ≠ 0b11#2 →
      decode (b0 :: b1 :: rest) = .error .unsupportedAddressingMode) ∧
    (opcodeBits b0 = 0b100010#6 → modBits b1 = 0b11#2 →
      ∃ i : Instr, decodeInstr (b0 :: b1 :: rest) = .ok i ∧
        decode (b0 :: b1 :: rest) = .ok (2, i.line))

/-- 41_opcode_classifier.md R70: the classifier in full, its fields taken by the arithmetic of
00_scope.md R8 (`b[hi:lo]` is `(b >> lo) mod 2^(hi-lo+1)`), and what it depends on, which the spec derives
from R64 to R69. -/
def Obligations.ClassifierInFull : Prop :=
  (∀ window : List Byte,
    classify window =
      match window with
      | [] => .error .truncatedInstruction
      | b0 :: rest =>
        if b0.toNat / 4 % 64 ≠ 34 then .error .unsupportedOpcode
        else match rest with
          | [] => .error .truncatedInstruction
          | b1 :: _ =>
            if b1.toNat / 64 % 4 ≠ 3 then .error .unsupportedAddressingMode
            else .ok { d := decide (b0.toNat / 2 % 2 = 1), w := decide (b0.toNat % 2 = 1),
                       reg := BitVec.ofNat 3 (b1.toNat / 8 % 8), rm := BitVec.ofNat 3 (b1.toNat % 8) }) ∧
  (∀ v v' : List Byte, v[0]? = v'[0]? → v[1]? = v'[1]? → classify v = classify v')

/-- 43_mov_rm_r.md R84 (`[derived: ..]` from R70 and R73 to R77): the decoder as one function, total, and
successful on exactly the accepted words, with count 2 and an 11-byte line. -/
def Obligations.DecoderInFull : Prop :=
  (∀ window : List Byte,
    decode window =
      match window with
      | [] => .error .truncatedInstruction
      | b0 :: rest =>
        if b0.toNat / 4 % 64 ≠ 34 then .error .unsupportedOpcode
        else match rest with
          | [] => .error .truncatedInstruction
          | b1 :: _ =>
            if b1.toNat / 64 % 4 ≠ 3 then .error .unsupportedAddressingMode
            else
              let w := decide (b0.toNat % 2 = 1)
              let regname := resolve (BitVec.ofNat 3 (b1.toNat / 8 % 8)) w
              let rmname := resolve (BitVec.ofNat 3 (b1.toNat % 8)) w
              let dst := if b0.toNat / 2 % 2 = 1 then regname else rmname
              let src := if b0.toNat / 2 % 2 = 1 then rmname else regname
              .ok (2, [0x6D#8, 0x6F#8, 0x76#8, 0x20#8] ++ dst ++ [0x2C#8, 0x20#8] ++ src ++ [0x0A#8])) ∧
  (∀ (window : List Byte),
    (∃ n line, decode window = .ok (n, line)) ↔
      ∃ b0 b1 rest, window = b0 :: b1 :: rest ∧ (InstrWord.ofBytes b0 b1).accepted = true) ∧
  (∀ (window : List Byte) (n : Nat) (line : Text), decode window = .ok (n, line) →
    n = 2 ∧ line.length = 11)

/-- Decoding gives back every encoded instruction, whatever follows it (30_encoding.md section 1). -/
def Obligations.DecodeOfEncodeIsIdentity : Prop :=
  ∀ (i : Instr) (rest : List Byte), i.wellFormed = true → decodeInstr (encode i ++ rest) = .ok i

/-- A window that decodes to an instruction begins with that instruction's encoding: each accepted word
has one meaning (30_encoding.md section 2). -/
def Obligations.EncodeOfDecodeIsIdentity : Prop :=
  ∀ (window : List Byte) (i : Instr), decodeInstr window = .ok i →
    window = encode i ++ window.drop 2 ∧ i.wellFormed = true

/-- The words of the worked examples of 43_mov_rm_r.md and the source's example (95_test_vectors.md V1)
decode as written, and the two words 8C C3 (95 section 3) and 8B 07 (95 V4) to nothing. The clauses about
decodeTableWord rest on the numbering of a table word, byte 0 in bits 15 to 8, which is log 12 (DEDUCED from
the table's word_convention) and 00_scope.md R10 (`[derived: ..]`). -/
def Obligations.WorkedWordsDecode : Prop :=
  decodeInstr [0b10001000#8, 0b11001000#8] = .ok (.movRm8R8 1#3 0#3) ∧
  decodeInstr [0b10001001#8, 0b11000011#8] = .ok (.movRm16R16 0#3 3#3) ∧
  decodeInstr [0b10001010#8, 0b11001000#8] = .ok (.movR8Rm8 1#3 0#3) ∧
  decodeInstr [0b10001011#8, 0b11000011#8] = .ok (.movR16Rm16 0#3 3#3) ∧
  decodeTableWord 16 0x88C8 = some (.movRm8R8 1#3 0#3) ∧
  decodeTableWord 16 0x89C3 = some (.movRm16R16 0#3 3#3) ∧
  decodeTableWord 16 0x8AC8 = some (.movR8Rm8 1#3 0#3) ∧
  decodeTableWord 16 0x8BC3 = some (.movR16Rm16 0#3 3#3) ∧
  decodeTableWord 16 0x8CC3 = none ∧ decodeTableWord 16 0x8B07 = none

/-! ### instruction_formatter -/

/-- 42_instruction_formatter.md R74: destination and source by the direction flag, both names resolved
with the same width. -/
def Obligations.DirectionFlagOrdersOperands : Prop :=
  ∀ (w : Bool) (reg rm : Selector),
    destination ⟨true, w, reg, rm⟩ = resolve reg w ∧ source ⟨true, w, reg, rm⟩ = resolve rm w ∧
    destination ⟨false, w, reg, rm⟩ = resolve rm w ∧ source ⟨false, w, reg, rm⟩ = resolve reg w ∧
    destination ⟨true, w, reg, rm⟩ = source ⟨false, w, reg, rm⟩ ∧
    source ⟨true, w, reg, rm⟩ = destination ⟨false, w, reg, rm⟩

/-- 42_instruction_formatter.md R76 (`[derived: ..]` from R75 and R58): the line byte for byte. -/
def Obligations.LineByteForByte : Prop :=
  (∀ f : Fields,
    (formatLine f).length = 11 ∧ (destination f).length = 2 ∧ (source f).length = 2 ∧
    (formatLine f).take 4 = [0x6D#8, 0x6F#8, 0x76#8, 0x20#8] ∧
    (formatLine f)[4]? = (destination f)[0]? ∧ (formatLine f)[5]? = (destination f)[1]? ∧
    (formatLine f)[6]? = some 0x2C#8 ∧ (formatLine f)[7]? = some 0x20#8 ∧
    (formatLine f)[8]? = (source f)[0]? ∧ (formatLine f)[9]? = (source f)[1]? ∧
    (formatLine f)[10]? = some 0x0A#8) ∧
  formatLine ⟨false, true, 0#3, 3#3⟩ =
    [0x6D#8, 0x6F#8, 0x76#8, 0x20#8, 0x62#8, 0x78#8, 0x2C#8, 0x20#8, 0x61#8, 0x78#8, 0x0A#8]

/-- 43_mov_rm_r.md R83: (a) two encodings, one text, and 128 lines in all, which the spec derives; (b) both
names of a line from one width set; (c) the line depends on the two bytes only; (d) no instruction touches `fault`, reads `out`
or depends on `offset`. -/
def Obligations.TwoEncodingsOneText : Prop :=
  (∀ i j : Instr, i.line = j.line ↔ j = i ∨ j = i.mirror) ∧
  (∀ i : Instr, i.mirror ≠ i) ∧
  (∀ (i : Instr) (s : State), exec i.mirror s = exec i s) ∧
  (Set.range Instr.line).ncard = 128 ∧
  (∀ i : Instr, ∃ (w : Bool) (a b : Selector), i.line = movLine (resolve a w) (resolve b w)) ∧
  (∀ (b0 b1 : Byte) (rest rest' : List Byte), decode (b0 :: b1 :: rest) = decode (b0 :: b1 :: rest')) ∧
  (∀ (i : Instr) (s : State), ∃ t, exec i s = .next t ∧ t.run.fault = s.run.fault ∧
    t.run.out = s.run.out.append i.line ∧ t.run.offset = s.run.offset + 2)

/-! ### The four instructions -/

/-- 43_mov_rm_r.md R79: `MOV r/m8, r8`. It completes in every state; in a running state whose next bytes
are `88` and `11 reg rm` it is what the step does; the names are byte names; the corner case `88 ED` and
the worked example `88 C8`. -/
def Obligations.MovRm8R8PrintsRmThenReg : Prop :=
  (∀ (reg rm : Selector) (s : State),
    exec (.movRm8R8 reg rm) s = .next { s with run := { s.run with
      out := s.run.out.append ([0x6D#8, 0x6F#8, 0x76#8, 0x20#8] ++ resolve rm false ++ [0x2C#8, 0x20#8]
        ++ resolve reg false ++ [0x0A#8])
      offset := s.run.offset + 2 } }) ∧
  (∀ (reg rm : Selector) (s : State), s.run.fault = none → s.run.offset + 1 < s.image.size →
    s.image.read s.run.offset = some 0x88#8 → s.image.read (s.run.offset + 1) = some (0b11#2 ++ reg ++ rm) →
    step s = exec (.movRm8R8 reg rm) s) ∧
  [0#3, 1#3, 2#3, 3#3, 4#3, 5#3, 6#3, 7#3].map (resolve · false) =
    [[0x61#8, 0x6C#8], [0x63#8, 0x6C#8], [0x64#8, 0x6C#8], [0x62#8, 0x6C#8],
     [0x61#8, 0x68#8], [0x63#8, 0x68#8], [0x64#8, 0x68#8], [0x62#8, 0x68#8]] ∧
  decode [0x88#8, 0xED#8] = .ok (2,
    [0x6D#8, 0x6F#8, 0x76#8, 0x20#8, 0x63#8, 0x68#8, 0x2C#8, 0x20#8, 0x63#8, 0x68#8, 0x0A#8]) ∧
  decode [0x88#8, 0xC8#8] = .ok (2,
    [0x6D#8, 0x6F#8, 0x76#8, 0x20#8, 0x61#8, 0x6C#8, 0x2C#8, 0x20#8, 0x63#8, 0x6C#8, 0x0A#8])

/-- 43_mov_rm_r.md R80: `MOV r/m16, r16`, with the corner case `89 E4` and the source's example `89 C3`. -/
def Obligations.MovRm16R16PrintsRmThenReg : Prop :=
  (∀ (reg rm : Selector) (s : State),
    exec (.movRm16R16 reg rm) s = .next { s with run := { s.run with
      out := s.run.out.append ([0x6D#8, 0x6F#8, 0x76#8, 0x20#8] ++ resolve rm true ++ [0x2C#8, 0x20#8]
        ++ resolve reg true ++ [0x0A#8])
      offset := s.run.offset + 2 } }) ∧
  (∀ (reg rm : Selector) (s : State), s.run.fault = none → s.run.offset + 1 < s.image.size →
    s.image.read s.run.offset = some 0x89#8 → s.image.read (s.run.offset + 1) = some (0b11#2 ++ reg ++ rm) →
    step s = exec (.movRm16R16 reg rm) s) ∧
  [0#3, 1#3, 2#3, 3#3, 4#3, 5#3, 6#3, 7#3].map (resolve · true) =
    [[0x61#8, 0x78#8], [0x63#8, 0x78#8], [0x64#8, 0x78#8], [0x62#8, 0x78#8],
     [0x73#8, 0x70#8], [0x62#8, 0x70#8], [0x73#8, 0x69#8], [0x64#8, 0x69#8]] ∧
  decode [0x89#8, 0xE4#8] = .ok (2,
    [0x6D#8, 0x6F#8, 0x76#8, 0x20#8, 0x73#8, 0x70#8, 0x2C#8, 0x20#8, 0x73#8, 0x70#8, 0x0A#8]) ∧
  decode [0x89#8, 0xC3#8] = .ok (2,
    [0x6D#8, 0x6F#8, 0x76#8, 0x20#8, 0x62#8, 0x78#8, 0x2C#8, 0x20#8, 0x61#8, 0x78#8, 0x0A#8])

/-- 43_mov_rm_r.md R81: `MOV r8, r/m8`, with the corner case `8A ED` (the same text as `88 ED`) and the
worked example `8A C8`. -/
def Obligations.MovR8Rm8PrintsRegThenRm : Prop :=
  (∀ (reg rm : Selector) (s : State),
    exec (.movR8Rm8 reg rm) s = .next { s with run := { s.run with
      out := s.run.out.append ([0x6D#8, 0x6F#8, 0x76#8, 0x20#8] ++ resolve reg false ++ [0x2C#8, 0x20#8]
        ++ resolve rm false ++ [0x0A#8])
      offset := s.run.offset + 2 } }) ∧
  (∀ (reg rm : Selector) (s : State), s.run.fault = none → s.run.offset + 1 < s.image.size →
    s.image.read s.run.offset = some 0x8A#8 → s.image.read (s.run.offset + 1) = some (0b11#2 ++ reg ++ rm) →
    step s = exec (.movR8Rm8 reg rm) s) ∧
  [0#3, 1#3, 2#3, 3#3, 4#3, 5#3, 6#3, 7#3].map (resolve · false) =
    [[0x61#8, 0x6C#8], [0x63#8, 0x6C#8], [0x64#8, 0x6C#8], [0x62#8, 0x6C#8],
     [0x61#8, 0x68#8], [0x63#8, 0x68#8], [0x64#8, 0x68#8], [0x62#8, 0x68#8]] ∧
  decode [0x8A#8, 0xED#8] = decode [0x88#8, 0xED#8] ∧
  decode [0x8A#8, 0xED#8] = .ok (2,
    [0x6D#8, 0x6F#8, 0x76#8, 0x20#8, 0x63#8, 0x68#8, 0x2C#8, 0x20#8, 0x63#8, 0x68#8, 0x0A#8]) ∧
  decode [0x8A#8, 0xC8#8] = .ok (2,
    [0x6D#8, 0x6F#8, 0x76#8, 0x20#8, 0x63#8, 0x6C#8, 0x2C#8, 0x20#8, 0x61#8, 0x6C#8, 0x0A#8])

/-- 43_mov_rm_r.md R82: `MOV r16, r/m16`, with the corner case `8B E4` and the worked example `8B C3`. -/
def Obligations.MovR16Rm16PrintsRegThenRm : Prop :=
  (∀ (reg rm : Selector) (s : State),
    exec (.movR16Rm16 reg rm) s = .next { s with run := { s.run with
      out := s.run.out.append ([0x6D#8, 0x6F#8, 0x76#8, 0x20#8] ++ resolve reg true ++ [0x2C#8, 0x20#8]
        ++ resolve rm true ++ [0x0A#8])
      offset := s.run.offset + 2 } }) ∧
  (∀ (reg rm : Selector) (s : State), s.run.fault = none → s.run.offset + 1 < s.image.size →
    s.image.read s.run.offset = some 0x8B#8 → s.image.read (s.run.offset + 1) = some (0b11#2 ++ reg ++ rm) →
    step s = exec (.movR16Rm16 reg rm) s) ∧
  [0#3, 1#3, 2#3, 3#3, 4#3, 5#3, 6#3, 7#3].map (resolve · true) =
    [[0x61#8, 0x78#8], [0x63#8, 0x78#8], [0x64#8, 0x78#8], [0x62#8, 0x78#8],
     [0x73#8, 0x70#8], [0x62#8, 0x70#8], [0x73#8, 0x69#8], [0x64#8, 0x69#8]] ∧
  decode [0x8B#8, 0xE4#8] = .ok (2,
    [0x6D#8, 0x6F#8, 0x76#8, 0x20#8, 0x73#8, 0x70#8, 0x2C#8, 0x20#8, 0x73#8, 0x70#8, 0x0A#8]) ∧
  decode [0x8B#8, 0xC3#8] = .ok (2,
    [0x6D#8, 0x6F#8, 0x76#8, 0x20#8, 0x61#8, 0x78#8, 0x2C#8, 0x20#8, 0x62#8, 0x78#8, 0x0A#8])

/-- The frame of `MOV r/m8, r8`, `MOV r/m16, r16`, `MOV r8, r/m8` and `MOV r16, r/m16`: each writes
`offset` and `out` only, and of `out` only the 11 bytes from address `length(out)` on, which
`Memory.append` stores to. Every other byte of both spaces reads as before. -/
def Obligations.MovFrame : Prop :=
  ∀ (reg rm : Selector) (i : Instr),
    i ∈ [.movRm8R8 reg rm, .movRm16R16 reg rm, .movR8Rm8 reg rm, .movR16Rm16 reg rm] →
    ∀ s t : State, exec i s = .next t →
      t.run.fault = s.run.fault ∧ t.image = s.image ∧ (∀ a, t.image.read a = s.image.read a) ∧
      t.run.offset = s.run.offset + 2 ∧ t.run.out.size = s.run.out.size + 11 ∧
      (∀ a, ¬ (s.run.out.size ≤ a ∧ a < s.run.out.size + 11) → t.run.out.read a = s.run.out.read a)

/-- What the four instructions store: with `out` in canonical form, the byte at `length(out) + j` is byte
`j` of the line, for the 11 values of `j`, and `out` stays in canonical form. -/
def Obligations.MovStoresItsLine : Prop :=
  ∀ (reg rm : Selector) (i : Instr),
    i ∈ [.movRm8R8 reg rm, .movRm16R16 reg rm, .movR8Rm8 reg rm, .movR16Rm16 reg rm] →
    ∀ s : State, s.run.out.wf → ∃ t, exec i s = .next t ∧ t.run.out.wf ∧
      t.run.out.bytes = s.run.out.bytes ++ i.line ∧
      ∀ j, j < 11 → t.run.out.read (s.run.out.size + j) = i.line[j]? ∧
        (t.run.out.read (s.run.out.size + j)).isSome

/-! ### The decode step -/

/-- When the window decodes to an instruction in a running state, the step is that instruction's meaning
at that state. Nothing is added around it: the meaning itself advances the offset. -/
def Obligations.StepRunsDecodedInstruction : Prop :=
  ∀ (s : State) (i : Instr), s.run.fault = none → s.run.offset < s.image.size →
    decodeInstr (s.run.window s.image) = .ok i → step s = exec i s

/-- 44_stream_walker.md R87: the decode step, in the decoder's terms, and the window it decodes. -/
def Obligations.DecodeStepOfStreamWalker : Prop :=
  (∀ (image : Memory) (r : RunState), r.fault = none → r.offset < image.size →
    match decode (r.window image) with
    | .ok (n, line) => n = 2 ∧
        decodeStep image r = .next { r with out := r.out.append line, offset := r.offset + n }
    | .error kind => decodeStep image r = .next { r with fault := some kind }) ∧
  (∀ (image : Memory) (r : RunState), ¬ (r.fault = none ∧ r.offset < image.size) →
    ¬ ∃ t, decodeStep image r = .next t) ∧
  (∀ (image : Memory) (r : RunState), image.wf → r.window image = image.bytes.drop r.offset)

/-- 10_state.md R14: the image is an argument of the step relation and no part of its state. The host's step
is the step relation at the image beside the run, and puts the same image back; no instruction changes it;
it is a byte sequence of any length, 0 included. -/
def Obligations.ImageIsParameterOfStep : Prop :=
  (∀ s t : State, step s = .next t ↔
    ∃ r, decodeStep s.image s.run = .next r ∧ t = { image := s.image, run := r }) ∧
  (∀ (i : Instr) (s t : State), exec i s = .next t → t.image = s.image) ∧
  (∀ (s : State) (image : Text), (s.start image).image.size = image.length ∧
    (s.start image).image.bytes = image ∧ ∀ a, (s.start image).image.read a = image[a]?)

/-- 44_stream_walker.md R89: the terminal states are exactly those with no step, and the state stays as
it is there; the start state over the empty image is one. -/
def Obligations.TerminalStatesHaveNoStep : Prop :=
  (∀ (image : Memory) (r : RunState), (¬ ∃ t, decodeStep image r = .next t) ↔
    (r.fault = none ∧ image.size ≤ r.offset) ∨ r.fault ≠ none) ∧
  (∀ s : State, (¬ ∃ t, step s = .next t) ↔ ¬ ∃ t, decodeStep s.image s.run = .next t) ∧
  (∀ (r : RunState) (len : Nat), r.phase len = .done ↔ r.fault = none ∧ len ≤ r.offset) ∧
  (∀ (r : RunState) (len : Nat), r.phase len = .failed ↔ r.fault ≠ none) ∧
  (∀ (image : Memory) (r : RunState) (n : Nat), (¬ ∃ t, decodeStep image r = .next t) →
    runSteps image n r = r) ∧
  RunState.initial.phase 0 = .done

/-- The model's choice (log 3): in a terminal state the step stops by a name that says which one. -/
def Obligations.TerminalStatesStopByName : Prop :=
  (∀ s : State, s.run.fault = none → s.image.size ≤ s.run.offset → step s = .fault .runDone) ∧
  (∀ (s : State) (kind : FailureKind), s.run.fault = some kind → step s = .fault (.runFailed kind))

/-- What any step leaves alone: the image, every byte already in `out`, and the offset but for +2. -/
def Obligations.StepFrame : Prop :=
  ∀ s t : State, step s = .next t →
    t.image = s.image ∧ s.run.fault = none ∧
    (∀ a, a < s.run.out.size → t.run.out.read a = s.run.out.read a) ∧
    ((t.run.fault = none ∧ t.run.offset = s.run.offset + 2 ∧ t.run.out.size = s.run.out.size + 11) ∨
     (t.run.fault ≠ none ∧ t.run.offset = s.run.offset ∧ t.run.out = s.run.out))

/-- A step's outcome depends on the image only through its length and the bytes at the addresses it
reads: the byte at the offset, and the next one only if the opcode matched and it exists. -/
def Obligations.StepDependsOnlyOnBytesItReads : Prop :=
  (∀ s : State, s.run.fault = none → s.run.offset < s.image.size →
    (s.run.imageReads s.image = [s.run.offset, s.run.offset + 1] ∧ s.run.offset + 1 < s.image.size ∧
      ∃ b0, s.image.read s.run.offset = some b0 ∧ opcodeBits b0 = 0b100010#6) ∨
    (s.run.imageReads s.image = [s.run.offset] ∧
      (s.image.size ≤ s.run.offset + 1 ∨
        ∀ b0, s.image.read s.run.offset = some b0 → opcodeBits b0 ≠ 0b100010#6))) ∧
  (∀ (s t : State) (other : Memory), step s = .next t → other.size = s.image.size →
    (∀ a ∈ s.run.imageReads s.image, other.read a = s.image.read a) →
    step { s with image := other } = .next { t with image := other })

/-- 20_memory.md R30: no read at or past the end of the image; every address read exists; where byte 1 is
missing the failure is raised instead. -/
def Obligations.NoOutOfRangeRead : Prop :=
  (∀ (s : State) (a : Nat), a ∈ s.run.imageReads s.image →
    a < s.image.size ∧ (s.image.wf → (s.image.read a).isSome = true)) ∧
  (∀ (s : State) (b0 : Byte), s.run.fault = none → s.run.offset + 1 = s.image.size →
    s.image.read s.run.offset = some b0 → opcodeBits b0 = 0b100010#6 →
    s.run.imageReads s.image = [s.run.offset] ∧
      step s = .next { s with run := { s.run with fault := some .truncatedInstruction } })

/-- 20_memory.md R33, whose addresses of the k-th line the spec derives: what OutAppend does to the output
space; that it is the only write there and nothing is read back from it; and which addresses the header and
the k-th line of a run take. -/
def Obligations.OutputSpaceIsAppendOnly : Prop :=
  (∀ (m : Memory) (text : Text), m.wf →
    (m.append text).wf ∧ (m.append text).bytes = m.bytes ++ text ∧
    (∀ a, a < m.size → (m.append text).read a = m.read a) ∧
    (∀ j, j < text.length → (m.append text).read (m.size + j) = text[j]?)) ∧
  (∀ s t : State, step s = .next t →
    t.run.out = s.run.out ∨ ∃ line, t.run.out = s.run.out.append line) ∧
  (∀ (s t : State) (other : Memory), step s = .next t →
    ∃ u, step { s with run := { s.run with out := other } } = .next u ∧
      u.run.offset = t.run.offset ∧ u.run.fault = t.run.fault ∧ u.image = t.image) ∧
  (∀ (image : Text) (k : Nat) (r : RunState), Reachable image k r →
    (∀ j, j < 8 → r.out.read j = headerLine[j]?) ∧
    (∀ n j, 1 ≤ n → n ≤ k → j < 11 →
      r.out.read (8 + 11 * (n - 1) + j) = (lineAt image (2 * (n - 1)))[j]? ∧
      (lineAt image (2 * (n - 1))).length = 11))

/-- The append port (92_eei_decisions.md D3): what it shows is what the step appends, and it shows nothing
where the step appends nothing. -/
def Obligations.AppendPortShowsWhatStepAppends : Prop :=
  (∀ s t : State, step s = .next t →
    (t.run.fault = none → ∃ line, s.run.outPush s.image = some line ∧ line.length = 11 ∧
      t.run.out = s.run.out.append line) ∧
    (t.run.fault ≠ none → s.run.outPush s.image = none ∧ t.run.out = s.run.out)) ∧
  (∀ s : State, ¬ (s.run.fault = none ∧ s.run.offset < s.image.size) →
    s.run.outPush s.image = none ∧ s.run.imageReads s.image = [])

/-- Placing the word of a table row that decodes, in any state, makes the very next step run it. -/
def Obligations.FetchWordRunsNext : Prop :=
  ∀ (s : State) (nbits w : Nat) (i : Instr), decodeTableWord nbits w = some i →
    (s.withFetchWord nbits w).run.offset = s.run.offset ∧ (s.withFetchWord nbits w).run.out = s.run.out ∧
    step (s.withFetchWord nbits w) = exec i (s.withFetchWord nbits w)

/-! ### Failures -/

/-- 60_exceptions.md R96. -/
def Obligations.UnsupportedOpcodeFailure : Prop :=
  ∀ (s : State) (b0 : Byte), s.run.fault = none → s.run.offset < s.image.size →
    s.image.read s.run.offset = some b0 →
    (opcodeBits b0 ≠ 0b100010#6 ↔
      step s = .next { s with run := { s.run with fault := some .unsupportedOpcode } })

/-- 60_exceptions.md R97. -/
def Obligations.UnsupportedAddressingModeFailure : Prop :=
  ∀ (s : State) (b0 b1 : Byte), s.run.fault = none → s.run.offset + 1 < s.image.size →
    s.image.read s.run.offset = some b0 → s.image.read (s.run.offset + 1) = some b1 →
    (opcodeBits b0 = 0b100010#6 ∧ modBits b1 ≠ 0b11#2 ↔
      step s = .next { s with run := { s.run with fault := some .unsupportedAddressingMode } })

/-- 60_exceptions.md R98. -/
def Obligations.TruncatedInstructionFailure : Prop :=
  (∀ (s : State) (b0 : Byte), s.run.fault = none → s.image.wf → s.run.offset < s.image.size →
    s.image.read s.run.offset = some b0 →
    (opcodeBits b0 = 0b100010#6 ∧ s.run.offset + 1 = s.image.size ↔
      step s = .next { s with run := { s.run with fault := some .truncatedInstruction } })) ∧
  decode [] = .error .truncatedInstruction

/-- 60_exceptions.md R100: failure entry writes `fault` and nothing else, and the run is over. -/
def Obligations.FailureEntryEndsRun : Prop :=
  ∀ (s : State) (kind : FailureKind), s.run.fault = none → s.run.offset < s.image.size →
    decode (s.run.window s.image) = .error kind →
    ∃ t, step s = .next t ∧ t.run.fault = some kind ∧ t.run.out = s.run.out ∧
      t.run.offset = s.run.offset ∧ t.image = s.image ∧ t.phase = .failed ∧
      (¬ ∃ u, step t = .next u) ∧ ∀ n, runSteps t.image n t.run = t.run

/-- 60_exceptions.md R101: within one instruction the first failing test is reported, and across
instructions the failure of the first one in address order; later bytes play no part. -/
def Obligations.FirstFailureIsReported : Prop :=
  decode [0x00#8] = .error .unsupportedOpcode ∧
  decode [0x00#8, 0x00#8] = .error .unsupportedOpcode ∧
  decode [0x89#8] = .error .truncatedInstruction ∧
  decode [0x89#8, 0x00#8] = .error .unsupportedAddressingMode ∧
  (∀ (image later : Text) (j : Nat) (kind : FailureKind),
    (∀ k, k < j → ∃ line, decode (image.drop (2 * k)) = .ok (2, line)) →
    2 * j < image.length → decode (image.drop (2 * j)) = .error kind →
    (finalState image).fault = some kind ∧ (finalState image).offset = 2 * j ∧
    (2 * j + 2 ≤ image.length →
      (finalState (image.take (2 * j + 2) ++ later)).fault = some kind ∧
      (finalState (image.take (2 * j + 2) ++ later)).out = (finalState image).out))

/-! ### Status and result -/

/-- 10_state.md R21: the status outputs as functions of the state and of L. -/
def Obligations.StatusOutputs : Prop :=
  (∀ (r : RunState) (len : Nat), (r.status len).offset = r.offset ∧
    ((r.status len).fault = 0#3 ↔ r.fault = none) ∧
    ((r.status len).fault = 1#3 ↔ r.fault = some .unsupportedOpcode) ∧
    ((r.status len).fault = 2#3 ↔ r.fault = some .unsupportedAddressingMode) ∧
    ((r.status len).fault = 3#3 ↔ r.fault = some .truncatedInstruction) ∧
    ((r.status len).fault = 4#3 ↔ r.fault = some .lookupFailure) ∧ (r.status len).fault.toNat ≤ 4 ∧
    (r.phase len = .running ↔ r.fault = none ∧ r.offset < len) ∧
    (r.phase len = .done ↔ r.fault = none ∧ len ≤ r.offset) ∧
    (r.phase len = .failed ↔ r.fault ≠ none) ∧
    ((r.status len).done = true ↔ r.phase len = .done) ∧
    ((r.status len).failed = true ↔ r.phase len = .failed) ∧
    ((r.status len).textValid = true ↔ r.phase len = .done)) ∧
  Phase.code .running = 0#2 ∧ Phase.code .done = 1#2 ∧ Phase.code .failed = 2#2

/-- 44_stream_walker.md R90: the result of a run, and what `out` and `offset` hold after a failure. -/
def Obligations.ResultOfRun : Prop :=
  (∀ (r : RunState) (len : Nat), r.phase len = .done →
    r.result len = some (.ok r.out.bytes) ∧ (r.status len).textValid = true) ∧
  (∀ (r : RunState) (len : Nat) (kind : FailureKind), r.fault = some kind →
    r.result len = some (.error kind) ∧ (r.status len).textValid = false) ∧
  (∀ (r : RunState) (len : Nat), r.phase len = .running → r.result len = none) ∧
  (∀ (image : Text) (k : Nat) (r : RunState) (kind : FailureKind), Reachable image k r →
    r.fault = some kind →
    r.out.bytes = headerLine ++ linesUpTo image k ∧ r.offset = 2 * k ∧
    decode (image.drop r.offset) = .error kind)

/-! ### Invariants and whole runs -/

/-- The invariant of a run holds in every start state, the reset state among them. -/
def Obligations.StartStateMeetsInvariant : Prop :=
  (∀ (s : State) (image : Text), Inv (s.start image).image (s.start image).run) ∧
    Inv State.reset.image State.reset.run

/-- The invariant of a run is kept by every step, from every state that meets it. -/
def Obligations.StepKeepsInvariant : Prop :=
  ∀ s t : State, Inv s.image s.run → step s = .next t → Inv t.image t.run

/-- 44_stream_walker.md R92 (`[derived: ..]` from R86, R87, R76 and R67): the invariants (a) to (f) of every
reachable state, `k` the number of successful steps taken so far. -/
def Obligations.ReachableStateInvariants : Prop :=
  ∀ (image : Text) (k : Nat) (r : RunState), Reachable image k r →
    (r.offset = 2 * k ∧ r.offset % 2 = 0) ∧
    (r.offset ≤ image.length ∧
      (∀ t, decodeStep (Memory.ofBytes image) r = .next t → t.fault = none →
        r.offset + 1 < image.length) ∧
      (r.phase image.length = .done → r.offset = image.length ∧ image.length % 2 = 0)) ∧
    r.out.size = 8 + 11 * k ∧
    r.out.bytes = headerLine ++ linesUpTo image k ∧
    (∀ kind, r.fault = some kind → decode (image.drop r.offset) = .error kind) ∧
    (∀ j, j < k → wordAcceptedAt image (2 * j))

/-- 44_stream_walker.md R94, whose bound the spec derives from R87 to R89: every run ends within
`floor(L/2) + 1` steps, and the closed form of its outcome. -/
def Obligations.RunOutcomeClosedForm : Prop :=
  ∀ image : Text,
    (∀ n, image.length / 2 + 1 ≤ n →
      runSteps (Memory.ofBytes image) n RunState.initial = finalState image) ∧
    (finalState image).phase image.length ≠ .running ∧
    ∃ j, j ≤ image.length / 2 ∧
      (∀ k, k < j → 2 * k < image.length ∧ ∃ line, decode (image.drop (2 * k)) = .ok (2, line)) ∧
      ((2 * j = image.length ∧ finalState image =
          { offset := image.length, out := Memory.ofBytes (headerLine ++ linesUpTo image j),
            fault := none }) ∨
       (2 * j < image.length ∧ ∃ kind, decode (image.drop (2 * j)) = .error kind ∧
          finalState image =
          { offset := 2 * j, out := Memory.ofBytes (headerLine ++ linesUpTo image j),
            fault := some kind }))

/-- A run ends in `DONE` exactly when the image is a sequence of accepted words with no byte left over. -/
def Obligations.RunSucceedsIffImageAccepted : Prop :=
  ∀ image : Text, SafeRun image ↔ imageAccepted image = true

/-- Disassembling a concatenation of N instructions gives the header and exactly their N lines in order,
and consumes 2N bytes (95_test_vectors.md V7). -/
def Obligations.ConcatenationDisassemblesInOrder : Prop :=
  ∀ program : List Instr,
    disassemble (program.flatMap encode) =
      some (.ok ([0x62#8, 0x69#8, 0x74#8, 0x73#8, 0x20#8, 0x31#8, 0x36#8, 0x0A#8]
        ++ program.flatMap Instr.line)) ∧
    (finalState (program.flatMap encode)).offset = 2 * program.length

/-- Disassembling the empty image gives the header line and no error (95_test_vectors.md V6). -/
def Obligations.EmptyImageGivesHeader : Prop :=
  disassemble [] = some (.ok [0x62#8, 0x69#8, 0x74#8, 0x73#8, 0x20#8, 0x31#8, 0x36#8, 0x0A#8]) ∧
    (finalState []).phase 0 = .done ∧ (finalState []).fault = none

/-- 30_encoding.md R56, whose one width per line the spec derives from R48: the whole text of a successful
run, and its grammar. -/
def Obligations.TextOfSuccessfulRun : Prop :=
  ∀ (image : Text) (text : Text), disassemble image = some (.ok text) →
    ∃ names : List (Bool × Selector × Selector), names.length = image.length / 2 ∧
      text = [0x62#8, 0x69#8, 0x74#8, 0x73#8, 0x20#8, 0x31#8, 0x36#8, 0x0A#8] ++
        names.flatMap (fun n => [0x6D#8, 0x6F#8, 0x76#8, 0x20#8] ++ resolve n.2.1 n.1 ++
          [0x2C#8, 0x20#8] ++ resolve n.2.2 n.1 ++ [0x0A#8])

/-- Every image of odd length ends in `FAILED` (95_test_vectors.md section 2.7). -/
def Obligations.OddLengthImageFails : Prop :=
  ∀ image : Text, image.length % 2 = 1 →
    (finalState image).phase image.length = .failed ∧ (finalState image).offset < image.length ∧
    ((finalState image).fault = some .truncatedInstruction →
      (finalState image).offset = image.length - 1)

/-- An offset register of `AW` bits that the image fits holds the offset exactly in every state of a run,
and the addition of 2 never wraps (92_eei_decisions.md D4). -/
def Obligations.FiniteOffsetRegisterNeverWraps : Prop :=
  ∀ (aw : Nat) (image : Text) (k : Nat) (r : RunState), Config.offsetFits aw image.length →
    Reachable image k r →
    (BitVec.ofNat aw r.offset).toNat = r.offset ∧
    (∀ t, decodeStep (Memory.ofBytes image) r = .next t → t.fault = none →
      BitVec.ofNat aw t.offset = BitVec.ofNat aw r.offset + BitVec.ofNat aw 2 ∧
      (BitVec.ofNat aw t.offset).toNat = r.offset + 2)

/-- An Output Buffer of `8 + 11*floor(L/2)` bytes takes every append of a run, and for every length there
is an image that fills it (92_eei_decisions.md D9). -/
def Obligations.OutputCapacityIsExact : Prop :=
  (∀ (image : Text) (k : Nat) (r : RunState), Reachable image k r →
    r.out.size ≤ Config.outCapacity image.length) ∧
  (∀ len : Nat, ∃ image : Text, image.length = len ∧
    (finalState image).out.size = Config.outCapacity len)
end

