-- ==== Sys2Proof/Laws/Decode.lean ====
section
/-! SUPPORT. What the classifier answers on each shape of window, and the fields of an encoded byte. -/

namespace Sys2Proof

theorem classify_empty : classify [] = .error .truncatedInstruction := rfl

theorem classify_opcode_mismatch {b0 : Byte} (rest : List Byte) (h : opcodeBits b0 ≠ opcodePattern) :
    classify (b0 :: rest) = .error .unsupportedOpcode := by
  simp [classify, opcodeClassifier, h]

theorem classify_one_byte {b0 : Byte} (h : opcodeBits b0 = opcodePattern) :
    classify [b0] = .error .truncatedInstruction := by
  simp [classify, opcodeClassifier, h]

theorem classify_mode_mismatch {b0 b1 : Byte} (rest : List Byte) (h : opcodeBits b0 = opcodePattern)
    (h' : modBits b1 ≠ modRegister) :
    classify (b0 :: b1 :: rest) = .error .unsupportedAddressingMode := by
  simp [classify, opcodeClassifier, h, h']

theorem classify_match {b0 b1 : Byte} (rest : List Byte) (h : opcodeBits b0 = opcodePattern)
    (h' : modBits b1 = modRegister) :
    classify (b0 :: b1 :: rest) = .ok ⟨directionBit b0, widthBit b0, regBits b1, rmBits b1⟩ := by
  simp [classify, opcodeClassifier, h, h']

/-- Everything the classifier's acceptance says about the window. -/
theorem classify_ok_cases {window : List Byte} {f : Fields} (h : classify window = .ok f) :
    ∃ b0 b1 rest, window = b0 :: b1 :: rest ∧ opcodeBits b0 = opcodePattern ∧
      modBits b1 = modRegister ∧ f = ⟨directionBit b0, widthBit b0, regBits b1, rmBits b1⟩ := by
  rcases window with _ | ⟨b0, _ | ⟨b1, rest⟩⟩
  · simp [classify_empty] at h
  · by_cases ho : opcodeBits b0 = opcodePattern
    · simp [classify_one_byte ho] at h
    · simp [classify_opcode_mismatch [] ho] at h
  · by_cases ho : opcodeBits b0 = opcodePattern
    · by_cases hm : modBits b1 = modRegister
      · rw [classify_match rest ho hm] at h
        exact ⟨b0, b1, rest, rfl, ho, hm, by injection h with h; exact h.symm⟩
      · simp [classify_mode_mismatch rest ho hm] at h
    · simp [classify_opcode_mismatch (b1 :: rest) ho] at h

theorem decodeInstr_of_classify_ok {window : List Byte} {f : Fields} (h : classify window = .ok f) :
    decodeInstr window = .ok f.instr := by
  simp [decodeInstr, h]

theorem decodeInstr_of_classify_error {window : List Byte} {k : FailureKind}
    (h : classify window = .error k) : decodeInstr window = .error k := by
  simp [decodeInstr, h]

/-- The four instructions are the four flag pairs: neither map drops a field. -/
theorem Fields.instr_fields (f : Fields) : f.instr.fields = f := by
  rcases f with ⟨_ | _, _ | _, reg, rm⟩ <;> rfl

theorem Instr.fields_instr (i : Instr) : i.fields.instr = i := by
  cases i <;> rfl

/-- The opcode and the two flags of a byte 0 built from two flags. -/
theorem byte0_fields : ∀ d w : Bool,
    opcodeBits (opcodePattern ++ BitVec.ofBool d ++ BitVec.ofBool w) = opcodePattern ∧
      directionBit (opcodePattern ++ BitVec.ofBool d ++ BitVec.ofBool w) = d ∧
      widthBit (opcodePattern ++ BitVec.ofBool d ++ BitVec.ofBool w) = w := by
  decide

/-- The three fields of a byte 1 built from two selectors. -/
theorem byte1_fields : ∀ reg rm : Selector,
    modBits (modRegister ++ reg ++ rm) = modRegister ∧ regBits (modRegister ++ reg ++ rm) = reg ∧
      rmBits (modRegister ++ reg ++ rm) = rm := by
  decide

end Sys2Proof
end

