-- ==== Sys2Proof/Laws/Memory.lean ====
section
/-! SUPPORT. What the operations over a byte space do: canonical form, size, bytes, and reads. -/

namespace Sys2Proof.Machine

@[simp] theorem Memory.size_nil : Memory.size [] = 0 := rfl

@[simp] theorem Memory.bytes_nil : Memory.bytes [] = [] := rfl

@[simp] theorem Memory.bytes_length (m : Memory) : m.bytes.length = m.size := by
  simp [Memory.bytes, Memory.size]

@[simp] theorem Memory.place_length (a : Nat) (t : Text) : (Memory.place a t).length = t.length := by
  induction t generalizing a with
  | nil => rfl
  | cons b t ih => simp [Memory.place, ih]

theorem Memory.place_addresses (a : Nat) (t : Text) :
    (Memory.place a t).map (·.1) = List.range' a t.length := by
  induction t generalizing a with
  | nil => rfl
  | cons b t ih => simp [Memory.place, ih, List.range'_succ]

theorem Memory.place_bytes (a : Nat) (t : Text) : Memory.bytes (Memory.place a t) = t := by
  induction t generalizing a with
  | nil => rfl
  | cons b t ih => simpa [Memory.bytes, Memory.place] using ih (a + 1)

theorem Memory.place_append (a : Nat) (t u : Text) :
    Memory.place a (t ++ u) = Memory.place a t ++ Memory.place (a + t.length) u := by
  induction t generalizing a with
  | nil => simp [Memory.place]
  | cons b t ih => simp [Memory.place, ih, Nat.add_assoc, Nat.add_comm 1]

@[simp] theorem Memory.ofBytes_bytes (t : Text) : (Memory.ofBytes t).bytes = t := Memory.place_bytes 0 t

@[simp] theorem Memory.ofBytes_size (t : Text) : (Memory.ofBytes t).size = t.length :=
  Memory.place_length 0 t

theorem Memory.ofBytes_wf (t : Text) : (Memory.ofBytes t).wf := by
  show (Memory.place 0 t).map (·.1) = List.range (Memory.place 0 t).length
  rw [Memory.place_addresses, Memory.place_length, List.range_eq_range']

@[simp] theorem Memory.append_size (m : Memory) (t : Text) :
    (m.append t).size = m.size + t.length := by
  simp [Memory.append, Memory.size]

@[simp] theorem Memory.append_bytes (m : Memory) (t : Text) : (m.append t).bytes = m.bytes ++ t := by
  have h := Memory.place_bytes m.size t
  simp only [Memory.bytes] at h
  simp [Memory.append, Memory.bytes, h]

/-- An append keeps the canonical form. -/
theorem Memory.append_wf {m : Memory} (t : Text) (h : m.wf) : (m.append t).wf := by
  show (m ++ Memory.place m.size t).map (·.1) = List.range (m ++ Memory.place m.size t).length
  rw [List.map_append, Memory.place_addresses, h, List.length_append, Memory.place_length,
    List.range_eq_range', List.range_eq_range', Memory.size]
  simpa using (List.range'_append_1 : List.range' 0 m.length ++ List.range' (0 + m.length) t.length = _)

/-- Placing an instruction gives a space in canonical form. -/
theorem Memory.overwrite_wf (m : Memory) (a : Nat) (t : Text) : (m.overwrite a t).wf :=
  Memory.ofBytes_wf _

/-- In canonical form the addresses rise strictly. -/
theorem Memory.wf_addresses_rise {m : Memory} (h : m.wf) : (m.map (·.1)).Pairwise (· < ·) := by
  have h' : m.map (·.1) = List.range m.length := h
  rw [h']
  exact List.pairwise_lt_range

/-- The canonical form is the space of its own bytes. -/
theorem Memory.wf_iff_ofBytes (m : Memory) : m.wf ↔ m = Memory.ofBytes m.bytes := by
  constructor
  · intro h
    apply List.ext_getElem
    · exact (Memory.bytes_length m).symm.trans (Memory.place_length 0 m.bytes).symm
    · intro i h₁ h₂
      have h₃ : i < m.bytes.length := (Memory.bytes_length m).symm ▸ h₁
      have hw := Memory.ofBytes_wf m.bytes
      have hb := Memory.ofBytes_bytes m.bytes
      apply Prod.ext
      · have e₁ : (m.map (·.1))[i]'(by simpa using h₁) = (List.range m.length)[i]'(by simpa using h₁) := by
          congr 1
        have e₂ : ((Memory.ofBytes m.bytes).map (·.1))[i]'(by simpa using h₂)
            = (List.range (Memory.ofBytes m.bytes).length)[i]'(by simpa using h₂) := by
          congr 1
        simp only [List.getElem_map, List.getElem_range] at e₁ e₂
        rw [e₁, e₂]
      · have e : ((Memory.ofBytes m.bytes).bytes)[i]'(hb.symm ▸ h₃) = m.bytes[i]'h₃ := by
          congr 1
        simpa [Memory.bytes] using e.symm
  · intro h
    rw [h]
    exact Memory.ofBytes_wf _

/-- Equal byte sequences in canonical form are equal data. -/
theorem Memory.eq_of_bytes_eq {m n : Memory} (hm : m.wf) (hn : n.wf) (h : m.bytes = n.bytes) :
    m = n := by
  rw [(Memory.wf_iff_ofBytes m).1 hm, (Memory.wf_iff_ofBytes n).1 hn, h]

theorem Memory.read_append_cells (m n : Memory) (a : Nat) :
    Memory.read (m ++ n) a = (m.read a).or (Memory.read n a) := by
  induction m with
  | nil => rfl
  | cons c m ih =>
    by_cases h : c.1 = a <;> simp [Memory.read, h, ih]

theorem Memory.read_place (a : Nat) (t : Text) (b : Nat) :
    Memory.read (Memory.place a t) b = if a ≤ b then t[b - a]? else none := by
  induction t generalizing a with
  | nil => simp [Memory.place, Memory.read, Memory.unlisted]
  | cons x t ih =>
    simp only [Memory.place, Memory.read, ih]
    by_cases h : a = b
    · simp [h]
    · by_cases h' : a ≤ b
      · have e : b - a = (b - (a + 1)) + 1 := by omega
        have h'' : a + 1 ≤ b := by omega
        simp [h, h', h'', e]
      · have h'' : ¬ a + 1 ≤ b := by omega
        simp [h, h', h'']

theorem Memory.read_ofBytes (t : Text) (a : Nat) : (Memory.ofBytes t).read a = t[a]? := by
  rw [Memory.ofBytes, Memory.read_place]
  simp

/-- A read of a space in canonical form is the element of its byte sequence. -/
theorem Memory.read_of_wf {m : Memory} (h : m.wf) (a : Nat) : m.read a = m.bytes[a]? := by
  conv_lhs => rw [(Memory.wf_iff_ofBytes m).1 h]
  exact Memory.read_ofBytes _ _

/-- An append leaves every address outside the appended range as it was. -/
theorem Memory.read_append_outside (m : Memory) (t : Text) {a : Nat}
    (h : ¬ (m.size ≤ a ∧ a < m.size + t.length)) : (m.append t).read a = m.read a := by
  rw [Memory.append, Memory.read_append_cells, Memory.read_place]
  by_cases h' : m.size ≤ a
  · have : t[a - m.size]? = none := by
      apply List.getElem?_eq_none
      omega
    simp [this]
  · simp [h']

theorem Memory.readFrom_ofBytes (t : Text) (a n : Nat) :
    (Memory.ofBytes t).readFrom a n = (t.drop a).take n := by
  induction n generalizing a with
  | zero => simp [Memory.readFrom]
  | succ n ih =>
    rw [Memory.readFrom, Memory.read_ofBytes]
    rcases h : t[a]? with _ | b
    · have : t.length ≤ a := by simpa using h
      simp [List.drop_eq_nil_of_le this]
    · obtain ⟨ha, hb⟩ := List.getElem?_eq_some_iff.1 h
      simp [ih, List.drop_eq_getElem_cons ha, hb]

/-- Reading a space in canonical form from an address to its end gives the suffix of its bytes. -/
theorem Memory.readFrom_of_wf {m : Memory} (h : m.wf) (a : Nat) :
    m.readFrom a (m.size - a) = m.bytes.drop a := by
  have e : m.readFrom a (m.size - a) = (Memory.ofBytes m.bytes).readFrom a (m.size - a) :=
    congrArg (fun x => Memory.readFrom x a (m.size - a)) ((Memory.wf_iff_ofBytes m).1 h)
  rw [e, Memory.readFrom_ofBytes, List.take_of_length_le]
  simp

end Sys2Proof.Machine
end

