-- ==== Sys2Proof/Laws/Operands.lean ====
section
/-! SUPPORT. The lengths of names and lines, and the line of each instruction as the formatter gives it. -/

namespace Sys2Proof.Machine

@[simp] theorem resolve_length (sel : Selector) (w : Bool) : (resolve sel w).length = 2 := rfl

@[simp] theorem headerLine_length : headerLine.length = 8 := rfl

@[simp] theorem movLine_length (dst src : Text) :
    (movLine dst src).length = 7 + dst.length + src.length := by
  simp [movLine, mnemonicText, separatorText, newlineText]
  omega

@[simp] theorem destination_length (f : Fields) : (destination f).length = 2 := by
  unfold destination; split <;> rfl

@[simp] theorem source_length (f : Fields) : (source f).length = 2 := by
  unfold source; split <;> rfl

@[simp] theorem formatLine_length (f : Fields) : (formatLine f).length = 11 := by
  simp [formatLine]

/-- The meaning of the instruction the fields select: the formatter's line is appended. -/
theorem exec_instr (f : Fields) (s : State) :
    exec f.instr s = .next { s with run := s.run.retire (formatLine f) } := by
  rcases f with ⟨_ | _, _ | _, reg, rm⟩ <;> rfl

end Sys2Proof.Machine
end

