-- ==== Sys2Proof/Laws/PerInstr.lean ====
section
/-! SUPPORT. Facts about each instruction as syntax, one lemma per constructor. -/

namespace Sys2Proof.Laws

/-- `EncodedShape`: an instruction is well formed and is encoded in exactly two bytes, the first one of
the four opcode bytes, the second at least 0xC0 (30_encoding.md R44, R45, R53). -/
def EncodedShape.Statement (i : Instr) : Prop :=
  i.wellFormed = true ∧ (encode i).length = 2 ∧
    (∀ b0, (encode i)[0]? = some b0 → b0 ∈ [0x88#8, 0x89#8, 0x8A#8, 0x8B#8]) ∧
    (∀ b1, (encode i)[1]? = some b1 → 0xC0 ≤ b1.toNat)

theorem EncodedShape.second_byte : ∀ reg rm : Selector, 0xC0 ≤ (modRegister ++ reg ++ rm).toNat := by
  decide

theorem EncodedShape.first_byte : ∀ d w : Bool,
    opcodePattern ++ BitVec.ofBool d ++ BitVec.ofBool w ∈ [0x88#8, 0x89#8, 0x8A#8, 0x8B#8] := by
  decide

theorem EncodedShape.selectors_bounded : ∀ reg rm : Selector, reg.toNat < 8 ∧ rm.toNat < 8 := by
  decide

theorem EncodedShape.movRm8R8 (reg rm : Selector) : EncodedShape.Statement (.movRm8R8 reg rm) := by
  refine ⟨decide_eq_true (EncodedShape.selectors_bounded reg rm), rfl, ?_, ?_⟩ <;> intro b hb <;>
    injection hb with hb <;> subst hb
  · exact EncodedShape.first_byte _ _
  · exact EncodedShape.second_byte reg rm

theorem EncodedShape.movRm16R16 (reg rm : Selector) :
    EncodedShape.Statement (.movRm16R16 reg rm) := by
  refine ⟨decide_eq_true (EncodedShape.selectors_bounded reg rm), rfl, ?_, ?_⟩ <;> intro b hb <;>
    injection hb with hb <;> subst hb
  · exact EncodedShape.first_byte _ _
  · exact EncodedShape.second_byte reg rm

theorem EncodedShape.movR8Rm8 (reg rm : Selector) : EncodedShape.Statement (.movR8Rm8 reg rm) := by
  refine ⟨decide_eq_true (EncodedShape.selectors_bounded reg rm), rfl, ?_, ?_⟩ <;> intro b hb <;>
    injection hb with hb <;> subst hb
  · exact EncodedShape.first_byte _ _
  · exact EncodedShape.second_byte reg rm

theorem EncodedShape.movR16Rm16 (reg rm : Selector) :
    EncodedShape.Statement (.movR16Rm16 reg rm) := by
  refine ⟨decide_eq_true (EncodedShape.selectors_bounded reg rm), rfl, ?_, ?_⟩ <;> intro b hb <;>
    injection hb with hb <;> subst hb
  · exact EncodedShape.first_byte _ _
  · exact EncodedShape.second_byte reg rm

end Sys2Proof.Laws
end

