-- ==== Sys2Proof/Laws/State.lean ====
section
/-! SUPPORT. One lemma per field per update of the run's state, of the start event and of the two ways
between an outcome of a run and one that carries the image. -/

namespace Sys2Proof.Machine

@[simp] theorem RunState.initial_offset : RunState.initial.offset = 0 := rfl
@[simp] theorem RunState.initial_out : RunState.initial.out = Memory.ofBytes headerLine := rfl
@[simp] theorem RunState.initial_fault : RunState.initial.fault = none := rfl

@[simp] theorem State.start_image (s : State) (t : Text) : (s.start t).image = Memory.ofBytes t := rfl
@[simp] theorem State.start_run (s : State) (t : Text) : (s.start t).run = RunState.initial := rfl

@[simp] theorem RunState.retire_offset (r : RunState) (l : Text) : (r.retire l).offset = r.offset + 2 := rfl
@[simp] theorem RunState.retire_out (r : RunState) (l : Text) : (r.retire l).out = r.out.append l := rfl
@[simp] theorem RunState.retire_fault (r : RunState) (l : Text) : (r.retire l).fault = r.fault := rfl

@[simp] theorem RunState.raise_offset (r : RunState) (k : FailureKind) : (r.raise k).offset = r.offset := rfl
@[simp] theorem RunState.raise_out (r : RunState) (k : FailureKind) : (r.raise k).out = r.out := rfl
@[simp] theorem RunState.raise_fault (r : RunState) (k : FailureKind) : (r.raise k).fault = some k := rfl

@[simp] theorem runOutcome_next (t : State) : runOutcome (.next t) = .next t.run := rfl
@[simp] theorem besideImage_next (m : Memory) (r : RunState) :
    besideImage m (.next r) = .next { image := m, run := r } := rfl
@[simp] theorem besideImage_fault (m : Memory) (f : Fault) : besideImage m (.fault f) = .fault f := rfl

/-- An outcome with the image beside it is a next state exactly where the run has one. -/
theorem besideImage_eq_next {m : Memory} {o : Host.Outcome RunState Fault Refusal} {t : State} :
    besideImage m o = .next t ↔ ∃ r, o = .next r ∧ t = { image := m, run := r } := by
  cases o <;> simp [besideImage, eq_comm]

end Sys2Proof.Machine
end

