-- ==== Sys2Proof/Laws/Step.lean ====
section
/-! SUPPORT. Everything a step can do, said once, and how a run unfolds into steps. -/

namespace Sys2Proof.Machine

theorem RunState.halted_eq_none_iff (r : RunState) (len : Nat) :
    r.halted len = none ↔ r.fault = none ∧ r.offset < len := by
  unfold RunState.halted
  rcases hf : r.fault with _ | k
  · by_cases h : r.offset < len <;> simp [h]
  · simp

theorem decodeStep_accept {image : Memory} {r : RunState} {f : Fields} (hf : r.fault = none)
    (hl : r.offset < image.size) (hc : classify (r.window image) = .ok f) :
    decodeStep image r = .next (r.retire (formatLine f)) := by
  have hh := (r.halted_eq_none_iff image.size).2 ⟨hf, hl⟩
  simp only [decodeStep, hh, decodeInstr_of_classify_ok hc, exec_instr, runOutcome_next]

theorem decodeStep_reject {image : Memory} {r : RunState} {k : FailureKind} (hf : r.fault = none)
    (hl : r.offset < image.size) (hc : classify (r.window image) = .error k) :
    decodeStep image r = .next (r.raise k) := by
  have hh := (r.halted_eq_none_iff image.size).2 ⟨hf, hl⟩
  simp only [decodeStep, hh, decodeInstr_of_classify_error hc]

theorem decodeStep_halted {image : Memory} {r : RunState} {f : Fault} (h : r.halted image.size = some f) :
    decodeStep image r = .fault f := by
  simp only [decodeStep, h]

/-- A decode step that has a next state was enabled, and either accepted an instruction or took a
failure. -/
theorem decodeStep_cases {image : Memory} {r t : RunState} (h : decodeStep image r = .next t) :
    r.fault = none ∧ r.offset < image.size ∧
      ((∃ f, classify (r.window image) = .ok f ∧ t = r.retire (formatLine f)) ∨
       (∃ k, classify (r.window image) = .error k ∧ t = r.raise k)) := by
  rcases hh : r.halted image.size with _ | f
  · obtain ⟨hf, hl⟩ := (r.halted_eq_none_iff image.size).1 hh
    refine ⟨hf, hl, ?_⟩
    rcases hc : classify (r.window image) with k | f
    · rw [decodeStep_reject hf hl hc] at h
      exact .inr ⟨k, rfl, by injection h with h; exact h.symm⟩
    · rw [decodeStep_accept hf hl hc] at h
      exact .inl ⟨f, rfl, by injection h with h; exact h.symm⟩
  · simp [decodeStep_halted hh] at h

/-- The host's step has a next state exactly where the run has one, with the image unchanged. -/
theorem step_cases {s t : State} (h : step s = .next t) :
    ∃ r, decodeStep s.image s.run = .next r ∧ t = { image := s.image, run := r } :=
  besideImage_eq_next.1 h

theorem step_of_decodeStep {s : State} {r : RunState} (h : decodeStep s.image s.run = .next r) :
    step s = .next { image := s.image, run := r } := by
  rw [step, h, besideImage_next]

theorem runSteps_next {image : Memory} {r t : RunState} (n : Nat) (h : decodeStep image r = .next t) :
    runSteps image (n + 1) r = runSteps image n t := by
  simp only [runSteps, h]

theorem runSteps_halted {image : Memory} {r : RunState} {f : Fault} (n : Nat)
    (h : r.halted image.size = some f) : runSteps image n r = r := by
  cases n with
  | zero => rfl
  | succ n => simp only [runSteps, decodeStep_halted h]

end Sys2Proof.Machine
end

