-- ==== Sys2Proof/Tests/Slice0.lean ====
section
/-! SUPPORT. Tests of the model, their expected values taken from spec/ (the file and place are named), and
for each statement with hypotheses a state and operands that meet them. -/

namespace Sys2Proof.Tests
open Sys2Proof.Machine

/-- A state of a run over `image` at offset `o`, with the header alone in `out`. -/
def runningAt (image : Text) (o : Nat) : State :=
  { image := Memory.ofBytes image, run := { RunState.initial with offset := o } }

/-- The next state, where there is one. -/
def nextOf : Host.Outcome State Fault Refusal → Option State
  | .next t => some t
  | .fault _ => none
  | .refused _ => none

/-- The image addresses the next step reads. -/
def readsOf (s : State) : List Nat := s.run.imageReads s.image

/-! ### WellFormed smoke -/

/-- Opcode check: 8C C3 beside the accepted 88 C3 (95 section 3). -/
theorem test_word_opcode_checked :
    (InstrWord.ofBytes 0x8C#8 0xC3#8).accepted = false ∧
    (InstrWord.ofBytes 0x88#8 0xC3#8).accepted = true := by decide

/-- Mode check: the largest rejected second byte and the smallest accepted one (95 section 2.3). -/
theorem test_word_mode_checked :
    (InstrWord.ofBytes 0x89#8 0xBF#8).accepted = false ∧
    (InstrWord.ofBytes 0x89#8 0xC0#8).accepted = true := by decide

/-- Completeness check of an image: a byte left over, a rejected word, the empty image. -/
theorem test_image_complete_checked :
    imageAccepted [0x89#8, 0xC3#8, 0x89#8] = false ∧
    imageAccepted [0x89#8, 0xC3#8, 0x8B#8, 0x07#8] = false ∧ imageAccepted [] = true := by decide

/-- Every instruction is well formed: the extremes of both selectors. -/
theorem test_instr_wellFormed :
    (Instr.movRm8R8 0#3 7#3).wellFormed = true ∧ (Instr.movR16Rm16 7#3 0#3).wellFormed = true := by
  decide

/-! ### Decode: words written out from 30_encoding.md R41, `100010dw 11 reg rm` -/

/-- 43_mov_rm_r.md R79: 88 C8, reg = 001, rm = 000. -/
theorem test_decode_movRm8R8 :
    decodeInstr [0b10001000#8, 0b11001000#8] = .ok (.movRm8R8 1#3 0#3) := by decide

/-- 95 V1, the source's own example: 89 C3, reg = 000, rm = 011. -/
theorem test_decode_movRm16R16 :
    decodeInstr [0b10001001#8, 0b11000011#8] = .ok (.movRm16R16 0#3 3#3) := by decide

/-- 43_mov_rm_r.md R81: 8A C8. -/
theorem test_decode_movR8Rm8 :
    decodeInstr [0b10001010#8, 0b11001000#8] = .ok (.movR8Rm8 1#3 0#3) := by decide

/-- 95 P3: 8B E7, reg = 100, rm = 111 (`mov sp, di`). -/
theorem test_decode_movR16Rm16 :
    decodeInstr [0b10001011#8, 0b11100111#8] = .ok (.movR16Rm16 4#3 7#3) := by decide

/-- 95 section 3: the neighbours of the accepted first bytes. -/
theorem test_decode_opcode_neighbours :
    decodeInstr [0x87#8, 0xC3#8] = .error .unsupportedOpcode ∧
    decodeInstr [0x8C#8, 0xC3#8] = .error .unsupportedOpcode ∧
    decodeInstr [0x22#8, 0xC3#8] = .error .unsupportedOpcode := by decide

/-- 95 section 2.4: order of tests, one-byte and empty windows, bytes past the second not looked at. -/
theorem test_decode_window_lengths :
    decodeInstr [] = .error .truncatedInstruction ∧
    decodeInstr [0x8C#8] = .error .unsupportedOpcode ∧
    decodeInstr [0x8B#8] = .error .truncatedInstruction ∧
    decodeInstr [0x89#8, 0x00#8] = .error .unsupportedAddressingMode ∧
    decodeInstr [0x89#8, 0xC3#8, 0xFF#8] = .ok (.movRm16R16 0#3 3#3) ∧
    decodeInstr [0x00#8, 0x89#8, 0xC3#8] = .error .unsupportedOpcode := by decide

/-- opcode_table.json: byte 0 is bits 15 to 8 of a table word. -/
theorem test_decode_table_word :
    decodeTableWord 16 0x88C0 = some (.movRm8R8 0#3 0#3) ∧
    decodeTableWord 16 0x8BFF = some (.movR16Rm16 7#3 7#3) ∧ decodeTableWord 16 0xC088 = none := by
  decide

/-- 95 section 2.3: E5 has reg = 100, rm = 101, after byte 0 = 89. -/
theorem test_encode_word : encode (.movRm16R16 4#3 5#3) = [0x89#8, 0xE5#8] := by decide

/-! ### The table and the line -/

/-- 40_register_name_lut.md R62: `bx`, `bl`, `sp`, `ah`. -/
theorem test_resolve_examples :
    resolve 3#3 true = [0x62#8, 0x78#8] ∧ resolve 3#3 false = [0x62#8, 0x6C#8] ∧
    resolve 4#3 true = [0x73#8, 0x70#8] ∧ resolve 4#3 false = [0x61#8, 0x68#8] := by decide

/-- 40_register_name_lut.md R60: the first selector outside {0..7}. -/
theorem test_lookup_failure_outside :
    resolveContract 8 true = .error .lookupFailure ∧ resolveContract 7 true = .ok [0x64#8, 0x69#8] := by
  decide

/-- 95 section 2.5: `d=1, w=1, reg=6, rm=4` prints `mov si, sp`. -/
theorem test_format_line :
    formatLine ⟨true, true, 6#3, 4#3⟩ =
      [0x6D#8, 0x6F#8, 0x76#8, 0x20#8, 0x73#8, 0x69#8, 0x2C#8, 0x20#8, 0x73#8, 0x70#8, 0x0A#8] := by
  decide

/-! ### One step of each instruction (95 section 2.6), and of each failure -/

/-- 88 C8: `mov al, cl`, after the header. -/
theorem test_step_movRm8R8 :
    (nextOf (step (runningAt [0x88#8, 0xC8#8] 0))).map (fun t => (t.run.out.bytes.drop 8, t.run.offset)) =
      some ([0x6D#8, 0x6F#8, 0x76#8, 0x20#8, 0x61#8, 0x6C#8, 0x2C#8, 0x20#8, 0x63#8, 0x6C#8, 0x0A#8], 2) :=
  by decide

/-- 89 C3: `mov bx, ax`. -/
theorem test_step_movRm16R16 :
    (nextOf (step (runningAt [0x89#8, 0xC3#8] 0))).map (fun t => (t.run.out.bytes.drop 8, t.run.fault)) =
      some ([0x6D#8, 0x6F#8, 0x76#8, 0x20#8, 0x62#8, 0x78#8, 0x2C#8, 0x20#8, 0x61#8, 0x78#8, 0x0A#8],
        none) := by decide

/-- 8A C8: `mov cl, al`, met at offset 2. -/
theorem test_step_movR8Rm8 :
    (nextOf (step (runningAt [0x89#8, 0xC3#8, 0x8A#8, 0xC8#8] 2))).map
        (fun t => (t.run.out.bytes.drop 8, t.run.offset)) =
      some ([0x6D#8, 0x6F#8, 0x76#8, 0x20#8, 0x63#8, 0x6C#8, 0x2C#8, 0x20#8, 0x61#8, 0x6C#8, 0x0A#8], 4) :=
  by decide

/-- 8B C3: `mov ax, bx`. -/
theorem test_step_movR16Rm16 :
    (nextOf (step (runningAt [0x8B#8, 0xC3#8] 0))).map (fun t => t.run.out.bytes.drop 8) =
      some [0x6D#8, 0x6F#8, 0x76#8, 0x20#8, 0x61#8, 0x78#8, 0x2C#8, 0x20#8, 0x62#8, 0x78#8, 0x0A#8] := by
  decide

/-- 95 section 2.7, step 3 of the run: 8B 07 at offset 4 fails and leaves offset and out. -/
theorem test_step_failure_writes_fault_only :
    nextOf (step (runningAt [0x89#8, 0xD9#8, 0x88#8, 0xE5#8, 0x8B#8, 0x07#8] 4)) =
      some { image := Memory.ofBytes [0x89#8, 0xD9#8, 0x88#8, 0xE5#8, 0x8B#8, 0x07#8],
             run := { offset := 4, out := Memory.ofBytes headerLine,
                      fault := some .unsupportedAddressingMode } } := by decide

/-- 95 P6: the single byte 89 at the end of the image; no address past it is read. -/
theorem test_step_truncated :
    (nextOf (step (runningAt [0x89#8, 0xD9#8, 0x89#8] 2))).map (·.run.fault) =
      some (some .truncatedInstruction) ∧
    readsOf (runningAt [0x89#8, 0xD9#8, 0x89#8] 2) = [2] := by decide

/-- 95 P7: the start state over the empty image has no step. -/
theorem test_reset_has_no_step :
    nextOf (step State.reset) = none ∧ State.reset.status.done = true := by decide

/-- The host's placing of a table word: the next step runs it (95 section 2.6, 8B FF). -/
theorem test_withFetchWord :
    (nextOf (step (State.reset.withFetchWord 16 0x8BFF))).map (·.run.out.bytes.drop 8) =
      some [0x6D#8, 0x6F#8, 0x76#8, 0x20#8, 0x64#8, 0x69#8, 0x2C#8, 0x20#8, 0x64#8, 0x69#8, 0x0A#8] := by
  decide

/-- Appending twice lays the bytes at rising addresses. -/
theorem test_append_addresses :
    ((Memory.ofBytes [1#8]).append [2#8]).append [3#8, 4#8] = [(0, 1#8), (1, 2#8), (2, 3#8), (3, 4#8)] := by
  decide

/-! ### Witnesses: for each statement with hypotheses, values that meet them -/

/-- Reset memory is in canonical form. -/
theorem reset_memories_wf : State.reset.image.wf ∧ State.reset.run.out.wf := by decide

/-- A reachable state with one instruction decoded, and one that failed. -/
theorem reachable_after_one :
    Reachable [0x89#8, 0xC3#8, 0x89#8] 1
      (RunState.initial.retire (formatLine ⟨false, true, 0#3, 3#3⟩)) :=
  .decoded .start rfl rfl

theorem reachable_failed :
    Reachable [0x89#8, 0xC3#8, 0x89#8] 1
      ((RunState.initial.retire (formatLine ⟨false, true, 0#3, 3#3⟩)).raise .truncatedInstruction) :=
  .failed reachable_after_one rfl (by decide)

theorem witness_StartEventSetsStartState : 0 < [0x89#8].length ∧ ([] : Text).length = 0 := by decide

theorem witness_RunsDoNotDependOnEarlierRuns : stepBound [0x89#8, 0xC3#8].length ≤ 2 := by decide

theorem witness_RegisterNamesTotalAndDistinct : resolve 7#3 true = resolve 7#3 true := by decide

/-- The first selector outside {0..7}; a reachable state is `reachable_after_one`. -/
theorem witness_LookupFailureNeverRaised :
    8 ≤ 8 ∧ ∃ r, Reachable [0x89#8, 0xC3#8, 0x89#8] 1 r := ⟨by decide, _, reachable_after_one⟩

theorem witness_ModeMatchDecidesAcceptance :
    opcodeBits 0x88#8 = 0b100010#6 ∧ opcodeBits 0x8B#8 = 0b100010#6 ∧
    modBits 0xBF#8 ≠ 0b11#2 ∧ modBits 0xC0#8 = 0b11#2 := by decide

/-- One input for each of the four clauses, at the edges of their ranges. -/
theorem witness_InputPartition :
    opcodeBits 0x87#8 ≠ 0b100010#6 ∧ opcodeBits 0x8C#8 ≠ 0b100010#6 ∧ opcodeBits 0x88#8 = 0b100010#6 ∧
    opcodeBits 0x8B#8 = 0b100010#6 ∧ modBits 0xBF#8 ≠ 0b11#2 ∧ modBits 0xC0#8 = 0b11#2 := by decide

/-- Two different windows that agree on their first two bytes. -/
theorem witness_ClassifierInFull :
    [0x89#8, 0xC3#8][0]? = [0x89#8, 0xC3#8, 0xFF#8][0]? ∧
    [0x89#8, 0xC3#8][1]? = [0x89#8, 0xC3#8, 0xFF#8][1]? := by decide

theorem witness_DecoderInFull : decode [0x89#8, 0xC3#8] = .ok (2, formatLine ⟨false, true, 0#3, 3#3⟩) := by
  decide

theorem witness_DecodeOfEncodeIsIdentity : (Instr.movR8Rm8 7#3 0#3).wellFormed = true := by decide

theorem witness_EncodeOfDecodeIsIdentity :
    decodeInstr [0x8A#8, 0xF8#8, 0x00#8] = .ok (.movR8Rm8 7#3 0#3) := by decide

theorem witness_MovRm8R8 :
    let s := runningAt [0x88#8, 0xED#8] 0
    s.run.fault = none ∧ s.run.offset + 1 < s.image.size ∧ s.image.read s.run.offset = some 0x88#8 ∧
      s.image.read (s.run.offset + 1) = some (0b11#2 ++ 5#3 ++ 5#3) := by decide

theorem witness_MovRm16R16 :
    let s := runningAt [0x89#8, 0xC3#8] 0
    s.run.fault = none ∧ s.run.offset + 1 < s.image.size ∧ s.image.read s.run.offset = some 0x89#8 ∧
      s.image.read (s.run.offset + 1) = some (0b11#2 ++ 0#3 ++ 3#3) := by decide

theorem witness_MovR8Rm8 :
    let s := runningAt [0x8A#8, 0xC8#8] 0
    s.run.fault = none ∧ s.run.offset + 1 < s.image.size ∧ s.image.read s.run.offset = some 0x8A#8 ∧
      s.image.read (s.run.offset + 1) = some (0b11#2 ++ 1#3 ++ 0#3) := by decide

theorem witness_MovR16Rm16 :
    let s := runningAt [0x8B#8, 0xFF#8] 0
    s.run.fault = none ∧ s.run.offset + 1 < s.image.size ∧ s.image.read s.run.offset = some 0x8B#8 ∧
      s.image.read (s.run.offset + 1) = some (0b11#2 ++ 7#3 ++ 7#3) := by decide

/-- Each of the four completes at reset; the addresses 7 and 19 lie just outside the stored bytes. -/
theorem witness_MovFrame :
    (∀ i ∈ [Instr.movRm8R8 1#3 0#3, .movRm16R16 1#3 0#3, .movR8Rm8 1#3 0#3, .movR16Rm16 1#3 0#3],
      (nextOf (exec i State.reset)).isSome = true) ∧
    ¬ (State.reset.run.out.size ≤ 7 ∧ 7 < State.reset.run.out.size + 11) ∧
    ¬ (State.reset.run.out.size ≤ 19 ∧ 19 < State.reset.run.out.size + 11) := by decide

/-- `out` in canonical form, and the last of the 11 bytes. -/
theorem witness_MovStoresItsLine : State.reset.run.out.wf ∧ 10 < 11 ∧
    Instr.movRm8R8 1#3 0#3 ∈
      [Instr.movRm8R8 1#3 0#3, .movRm16R16 1#3 0#3, .movR8Rm8 1#3 0#3, .movR16Rm16 1#3 0#3] := by decide

theorem witness_StepRunsDecodedInstruction :
    let s := runningAt [0x89#8, 0xC3#8] 0
    s.run.fault = none ∧ s.run.offset < s.image.size ∧
      decodeInstr (s.run.window s.image) = .ok (.movRm16R16 0#3 3#3) := by
  decide

/-- A running state, a terminal one, and an image in canonical form. -/
theorem witness_DecodeStepOfStreamWalker :
    let s := runningAt [0x89#8, 0xC3#8] 0
    s.run.fault = none ∧ s.run.offset < s.image.size ∧ s.image.wf ∧
      ¬ (State.reset.run.fault = none ∧ State.reset.run.offset < State.reset.image.size) := by decide

/-- A step, an instruction's next state and the image they leave alone. -/
theorem witness_ImageIsParameterOfStep :
    (nextOf (step (runningAt [0x89#8, 0xC3#8] 0))).map (·.image) = some (Memory.ofBytes [0x89#8, 0xC3#8]) ∧
    (nextOf (exec (.movRm8R8 0#3 0#3) State.reset)).isSome = true := by decide

theorem witness_TerminalStatesHaveNoStep :
    ¬ ∃ t, decodeStep State.reset.image State.reset.run = .next t :=
  fun ⟨_, h⟩ => by injection h

theorem witness_TerminalStatesStopByName :
    State.reset.run.fault = none ∧ State.reset.image.size ≤ State.reset.run.offset ∧
    (RunState.initial.raise .unsupportedOpcode).fault = some .unsupportedOpcode := by decide

/-- A successful step and a failing one; address 7 is the last of the header. -/
theorem witness_StepFrame :
    (nextOf (step (runningAt [0x89#8, 0xC3#8] 0))).isSome = true ∧
    (nextOf (step (runningAt [0x00#8] 0))).isSome = true ∧
    7 < (runningAt [0x00#8] 0).run.out.size := by decide

/-- Two images that agree at the addresses read and differ past them. -/
theorem witness_StepDependsOnlyOnBytesItReads :
    let s := runningAt [0x89#8, 0xC3#8, 0x00#8] 0
    let other := Memory.ofBytes [0x89#8, 0xC3#8, 0xFF#8]
    s.run.fault = none ∧ s.run.offset < s.image.size ∧ (nextOf (step s)).isSome = true ∧
      other.size = s.image.size ∧ (∀ a ∈ s.run.imageReads s.image, other.read a = s.image.read a) ∧
      other ≠ s.image := by decide

/-- The last address of an image is read; and a matching byte that is the last one. -/
theorem witness_NoOutOfRangeRead :
    1 ∈ readsOf (runningAt [0x89#8, 0xC3#8] 0) ∧ (runningAt [0x89#8, 0xC3#8] 0).image.wf ∧
    (let s := runningAt [0x89#8, 0xC3#8, 0x8B#8] 2
     s.run.fault = none ∧ s.run.offset + 1 = s.image.size ∧ s.image.read s.run.offset = some 0x8B#8 ∧
       opcodeBits 0x8B#8 = 0b100010#6) := by decide

/-- A space in canonical form, a step, and the n-th line for n = k = 1 at its first and last byte. -/
theorem witness_OutputSpaceIsAppendOnly :
    (Memory.ofBytes headerLine).wf ∧ 7 < (Memory.ofBytes headerLine).size ∧
    (nextOf (step (runningAt [0x89#8, 0xC3#8] 0))).isSome = true ∧ 1 ≤ 1 ∧ 0 < 11 ∧ 10 < 11 := by decide

/-- A step that appends, one that fails, and a state with no step. -/
theorem witness_AppendPortShowsWhatStepAppends :
    (nextOf (step (runningAt [0x89#8, 0xC3#8] 0))).map (·.run.fault) = some none ∧
    (nextOf (step (runningAt [0x89#8, 0x03#8] 0))).map (·.run.fault) =
      some (some .unsupportedAddressingMode) ∧
    ¬ (State.reset.run.fault = none ∧ State.reset.run.offset < State.reset.image.size) := by decide

theorem witness_FetchWordRunsNext : decodeTableWord 16 0x88C0 = some (.movRm8R8 0#3 0#3) := by decide

/-- Both sides of the equivalence occur: 8C fails it, 88 does not. -/
theorem witness_UnsupportedOpcodeFailure :
    let s := runningAt [0x8C#8] 0
    let s' := runningAt [0x88#8] 0
    (s.run.fault = none ∧ s.run.offset < s.image.size ∧ s.image.read s.run.offset = some 0x8C#8) ∧
      (s'.run.fault = none ∧ s'.run.offset < s'.image.size ∧
        s'.image.read s'.run.offset = some 0x88#8) := by decide

theorem witness_UnsupportedAddressingModeFailure :
    let s := runningAt [0x89#8, 0xBF#8] 0
    let s' := runningAt [0x89#8, 0xC0#8] 0
    (s.run.fault = none ∧ s.run.offset + 1 < s.image.size ∧ s.image.read s.run.offset = some 0x89#8 ∧
      s.image.read (s.run.offset + 1) = some 0xBF#8) ∧
    (s'.run.fault = none ∧ s'.run.offset + 1 < s'.image.size ∧ s'.image.read s'.run.offset = some 0x89#8 ∧
      s'.image.read (s'.run.offset + 1) = some 0xC0#8) := by decide

theorem witness_TruncatedInstructionFailure :
    let s := runningAt [0x89#8, 0xC3#8, 0x8B#8] 2
    s.run.fault = none ∧ s.image.wf ∧ s.run.offset < s.image.size ∧
      s.image.read s.run.offset = some 0x8B#8 := by
  decide

theorem witness_FailureEntryEndsRun :
    let s := runningAt [0x89#8, 0x00#8] 0
    s.run.fault = none ∧ s.run.offset < s.image.size ∧
      decode (s.run.window s.image) = .error .unsupportedAddressingMode := by
  decide

/-- 95 P5: the second instruction is the first to fail, and it has both its bytes. -/
theorem witness_FirstFailureIsReported :
    let image : Text := [0x89#8, 0xDE#8, 0x8B#8, 0x07#8, 0x89#8, 0xD9#8]
    (∀ k, k < 1 → ∃ line, decode (image.drop (2 * k)) = .ok (2, line)) ∧ 2 * 1 < image.length ∧
      decode (image.drop (2 * 1)) = .error .unsupportedAddressingMode ∧ 2 * 1 + 2 ≤ image.length := by
  refine ⟨fun k hk => ?_, by decide, by decide, by decide⟩
  obtain rfl : k = 0 := by omega
  exact ⟨_, rfl⟩

/-- States in each phase; a reachable failed state is `reachable_failed`. -/
theorem witness_ResultOfRun :
    State.reset.phase = .done ∧ (runningAt [0x89#8] 0).phase = .running ∧
    (RunState.initial.raise .truncatedInstruction).fault = some .truncatedInstruction ∧
    ∃ r, Reachable [0x89#8, 0xC3#8, 0x89#8] 1 r ∧ r.fault = some .truncatedInstruction :=
  ⟨by decide, by decide, by decide, _, reachable_failed, rfl⟩

/-- A state that meets the invariant and has a successful step. -/
theorem witness_StepKeepsInvariant :
    ∃ s t : State, Inv s.image s.run ∧ step s = .next t :=
  ⟨State.reset.start [0x89#8, 0xC3#8], _,
    { imageWf := by decide, outWf := by decide, offsetEven := by decide, offsetLe := by decide,
      outSize := by decide, outBytes := by decide, faultIsDecodes := fun _ h => by injection h,
      faultInside := fun h => absurd rfl h, wordsAccepted := fun j h => absurd h (Nat.not_lt_zero j) },
    rfl⟩

theorem witness_ReachableStateInvariants :
    ∃ r, Reachable [0x89#8, 0xC3#8, 0x89#8] 1 r ∧ r.fault = some .truncatedInstruction ∧ 0 < 1 :=
  ⟨_, reachable_failed, rfl, by decide⟩

theorem witness_RunOutcomeClosedForm : [0x89#8, 0xC3#8].length / 2 + 1 ≤ 2 := by decide

/-- 95 P1: 89 D9 disassembles to the header and `mov cx, bx`. -/
theorem witness_TextOfSuccessfulRun :
    disassemble [0x89#8, 0xD9#8] = some (.ok (headerLine ++
      [0x6D#8, 0x6F#8, 0x76#8, 0x20#8, 0x63#8, 0x78#8, 0x2C#8, 0x20#8, 0x62#8, 0x78#8, 0x0A#8])) := by
  decide

theorem witness_OddLengthImageFails :
    [0x89#8, 0xC3#8, 0x89#8].length % 2 = 1 ∧
    (finalState [0x89#8, 0xC3#8, 0x89#8]).fault = some .truncatedInstruction := by decide

/-- The narrowest register that takes an image of 3 bytes. -/
theorem witness_FiniteOffsetRegisterNeverWraps :
    Config.offsetFits 2 [0x89#8, 0xC3#8, 0x89#8].length ∧ ∃ s t,
      Reachable [0x89#8, 0xC3#8, 0x89#8] 0 s ∧
        decodeStep (Memory.ofBytes [0x89#8, 0xC3#8, 0x89#8]) s = .next t ∧ t.fault = none :=
  ⟨by decide, _, _, .start, rfl, rfl⟩

theorem witness_OutputCapacityIsExact :
    ∃ r, Reachable [0x89#8, 0xC3#8, 0x89#8] 1 r := ⟨_, reachable_after_one⟩

end Sys2Proof.Tests
end

section
/-! The status outputs (10_state.md R21): the codes of the failure outcome, when each phase holds, and
what each output says of the state. -/

namespace Sys2Proof

/-- Each failure outcome has a code of its own, so a code read at the output names the outcome. -/
theorem FailureKind.code_injective : Function.Injective FailureKind.code := by
  rintro (_ | a) (_ | b)
  · exact fun _ => rfl
  · cases b <;> decide
  · cases a <;> decide
  · cases a <;> cases b <;> decide

theorem FailureKind.code_le_four (f : Option FailureKind) : (FailureKind.code f).toNat ≤ 4 := by
  rcases f with _ | kind
  · decide
  · cases kind <;> decide

end Sys2Proof

namespace Sys2Proof.Machine

theorem RunState.phase_of_fault_some {r : RunState} {kind : FailureKind} (h : r.fault = some kind)
    (len : Nat) : r.phase len = .failed := by
  simp only [RunState.phase, h]

theorem RunState.phase_of_fault_none {r : RunState} (h : r.fault = none) (len : Nat) :
    r.phase len = if r.offset < len then .running else .done := by
  simp only [RunState.phase, h]

theorem RunState.phase_eq_running_iff (r : RunState) (len : Nat) :
    r.phase len = .running ↔ r.fault = none ∧ r.offset < len := by
  cases hf : r.fault with
  | some kind => simp [RunState.phase_of_fault_some hf]
  | none => simp [RunState.phase_of_fault_none hf]

theorem RunState.phase_eq_done_iff (r : RunState) (len : Nat) :
    r.phase len = .done ↔ r.fault = none ∧ len ≤ r.offset := by
  cases hf : r.fault with
  | some kind => simp [RunState.phase_of_fault_some hf]
  | none => simp [RunState.phase_of_fault_none hf]

theorem RunState.phase_eq_failed_iff (r : RunState) (len : Nat) :
    r.phase len = .failed ↔ r.fault ≠ none := by
  cases hf : r.fault with
  | some kind => simp [RunState.phase_of_fault_some hf]
  | none =>
    by_cases hl : r.offset < len
    · simp [RunState.phase_of_fault_none hf, hl]
    · simp [RunState.phase_of_fault_none hf, hl]

@[simp] theorem RunState.status_offset (r : RunState) (len : Nat) : (r.status len).offset = r.offset := rfl

@[simp] theorem RunState.status_fault (r : RunState) (len : Nat) :
    (r.status len).fault = FailureKind.code r.fault := rfl

/-- The fault output shows the code of `f` exactly when `f` is the failure outcome. -/
theorem RunState.status_fault_eq_code_iff (r : RunState) (len : Nat) (f : Option FailureKind) :
    (r.status len).fault = FailureKind.code f ↔ r.fault = f := by
  rw [RunState.status_fault, FailureKind.code_injective.eq_iff]

@[simp] theorem RunState.status_done_iff (r : RunState) (len : Nat) :
    (r.status len).done = true ↔ r.phase len = .done := beq_iff_eq

@[simp] theorem RunState.status_failed_iff (r : RunState) (len : Nat) :
    (r.status len).failed = true ↔ r.phase len = .failed := beq_iff_eq

@[simp] theorem RunState.status_textValid_iff (r : RunState) (len : Nat) :
    (r.status len).textValid = true ↔ r.phase len = .done := beq_iff_eq

/-- Settles O41: the codes are injective, and each phase is the condition R21 gives for it. -/
theorem statusOutputs : Obligations.StatusOutputs := by
  unfold Obligations.StatusOutputs
  refine ⟨fun r len => ?_, rfl, rfl, rfl⟩
  have hcode := r.status_fault_eq_code_iff len
  exact ⟨r.status_offset len, hcode none, hcode (some .unsupportedOpcode),
    hcode (some .unsupportedAddressingMode), hcode (some .truncatedInstruction),
    hcode (some .lookupFailure), FailureKind.code_le_four r.fault,
    r.phase_eq_running_iff len, r.phase_eq_done_iff len, r.phase_eq_failed_iff len,
    r.status_done_iff len, r.status_failed_iff len, r.status_textValid_iff len⟩

end Sys2Proof.Machine
end

section
/-! The reads of the image (20_memory.md R29, R30): which addresses a decode step reads, that they exist,
and what the window is at the last byte. -/

namespace Sys2Proof.Machine

/-- In canonical form the addresses below the size are the ones that exist (20_memory.md R28). -/
theorem Memory.read_isSome_iff_of_wf {m : Memory} (h : m.wf) (a : Nat) :
    (m.read a).isSome = true ↔ a < m.size := by
  rw [Memory.read_of_wf h, isSome_getElem?, ← Memory.bytes_length]

theorem RunState.imageReads_of_halted {r : RunState} {image : Memory} {f : Fault}
    (h : r.halted image.size = some f) : r.imageReads image = [] := by
  simp only [RunState.imageReads, h]

/-- An enabled step reads byte 0, and byte 1 only if the opcode matches and it exists (20_memory.md R29). -/
theorem RunState.imageReads_of_enabled {r : RunState} {image : Memory} (hf : r.fault = none)
    (hl : r.offset < image.size) :
    r.imageReads image =
      if (image.read r.offset).map opcodeBits = some opcodePattern ∧ r.offset + 1 < image.size then
        [r.offset, r.offset + 1]
      else [r.offset] := by
  simp only [RunState.imageReads, (r.halted_eq_none_iff image.size).2 ⟨hf, hl⟩]

theorem RunState.imageReads_at_last_byte {r : RunState} {image : Memory} (hf : r.fault = none)
    (hlast : r.offset + 1 = image.size) : r.imageReads image = [r.offset] := by
  rw [RunState.imageReads_of_enabled hf (by omega), if_neg fun h => by omega]

/-- No image read is at or past the end of the image. -/
theorem RunState.lt_size_of_mem_imageReads {r : RunState} {image : Memory} {a : Nat}
    (ha : a ∈ r.imageReads image) : a < image.size := by
  rcases hh : r.halted image.size with _ | f
  · obtain ⟨hf, hl⟩ := (r.halted_eq_none_iff image.size).1 hh
    rw [RunState.imageReads_of_enabled hf hl] at ha
    split at ha
    next hsecond =>
      have hcase : a = r.offset ∨ a = r.offset + 1 := by simpa using ha
      rcases hcase with rfl | rfl
      · exact hl
      · exact hsecond.2
    next =>
      rw [List.mem_singleton.1 ha]
      exact hl
  · simp [RunState.imageReads_of_halted hh] at ha

/-- At the last byte of the image the window is that byte alone. -/
theorem RunState.window_at_last_byte {r : RunState} {image : Memory} {b0 : Byte}
    (hlast : r.offset + 1 = image.size) (hread : image.read r.offset = some b0) :
    r.window image = [b0] := by
  have hlen : image.size - r.offset = 1 := by omega
  simp only [RunState.window, hlen, Memory.readFrom, hread]

/-- A matching opcode at the last byte of the image: the missing second byte is `TruncatedInstruction`. -/
theorem decodeStep_truncated_at_last_byte {image : Memory} {r : RunState} {b0 : Byte}
    (hf : r.fault = none) (hlast : r.offset + 1 = image.size) (hread : image.read r.offset = some b0)
    (hop : opcodeBits b0 = opcodePattern) :
    decodeStep image r = .next (r.raise .truncatedInstruction) := by
  apply decodeStep_reject hf (by omega)
  rw [RunState.window_at_last_byte hlast hread]
  exact classify_one_byte hop

/-- Settles O32: every address an enabled step reads is below the size, where a canonical image has a
byte, and the window at the last byte is one byte long, which the classifier rejects as truncated. -/
theorem noOutOfRangeRead : Obligations.NoOutOfRangeRead := by
  unfold Obligations.NoOutOfRangeRead
  constructor
  · intro s a ha
    have hlt := RunState.lt_size_of_mem_imageReads ha
    exact ⟨hlt, fun hwf => (Memory.read_isSome_iff_of_wf hwf a).2 hlt⟩
  · intro s b0 hf hlast hread hop
    exact ⟨RunState.imageReads_at_last_byte hf hlast,
      step_of_decodeStep (decodeStep_truncated_at_last_byte hf hlast hread hop)⟩

end Sys2Proof.Machine
end

section
/-! The Instruction Decoder's report on each shape of window (30_encoding.md R52): `decode` is `classify`
with the line and the count, so its failures and its acceptance are the classifier's. -/

namespace Sys2Proof.Machine

theorem decode_of_classify_ok {window : List Byte} {f : Fields} (h : classify window = .ok f) :
    decode window = .ok (consumedBytes, formatLine f) := by
  simp only [decode, h]

theorem decode_of_classify_error {window : List Byte} {k : FailureKind}
    (h : classify window = .error k) : decode window = .error k := by
  simp only [decode, h]

/-- The line of the instruction that the fields select is the formatter's line of those fields. -/
theorem line_instr (f : Fields) : f.instr.line = formatLine f := by
  rw [Instr.line, Fields.instr_fields]

/-- An accepted window holds an instruction, and the report is its line with count 2. -/
theorem decode_reports_line {window : List Byte} {f : Fields} (h : classify window = .ok f) :
    decodeInstr window = .ok f.instr ∧ decode window = .ok (2, f.instr.line) := by
  refine ⟨decodeInstr_of_classify_ok h, ?_⟩
  rw [decode_of_classify_ok h, line_instr, consumedBytes]

/-- Settles O10: each row of R52 is one answer of the classifier, which the report passes on. -/
theorem inputPartition : Obligations.InputPartition := by
  unfold Obligations.InputPartition
  intro b0 b1 rest
  refine ⟨fun hop => ?_, fun hop => ?_, fun hop hmod => ?_, fun hop hmod => ?_⟩
  · exact decode_of_classify_error (classify_opcode_mismatch rest hop)
  · exact decode_of_classify_error (classify_one_byte hop)
  · exact decode_of_classify_error (classify_mode_mismatch rest hop hmod)
  · exact ⟨_, decode_reports_line (classify_match rest hop hmod)⟩

end Sys2Proof.Machine
end

section
/-! The Register Name Table (40_register_name_lut.md R58) in selector order, one row of names per width:
the two halves of the read-only array that the packed key `8*w + sel` tells apart (R61). -/

namespace Sys2Proof.Machine

/-- `al cl dl bl ah ch dh bh`, the entries at keys 0 to 7. -/
theorem resolve_byte_names :
    [0#3, 1#3, 2#3, 3#3, 4#3, 5#3, 6#3, 7#3].map (resolve · false) =
      [[0x61#8, 0x6C#8], [0x63#8, 0x6C#8], [0x64#8, 0x6C#8], [0x62#8, 0x6C#8],
       [0x61#8, 0x68#8], [0x63#8, 0x68#8], [0x64#8, 0x68#8], [0x62#8, 0x68#8]] := by
  decide

/-- `ax cx dx bx sp bp si di`, the entries at keys 8 to 15. -/
theorem resolve_word_names :
    [0#3, 1#3, 2#3, 3#3, 4#3, 5#3, 6#3, 7#3].map (resolve · true) =
      [[0x61#8, 0x78#8], [0x63#8, 0x78#8], [0x64#8, 0x78#8], [0x62#8, 0x78#8],
       [0x73#8, 0x70#8], [0x62#8, 0x70#8], [0x73#8, 0x69#8], [0x64#8, 0x69#8]] := by
  decide

/-- Settles O4: the rows of byte names and of word names, read entry by entry. -/
theorem registerNameTableEntries : Obligations.RegisterNameTableEntries := by
  unfold Obligations.RegisterNameTableEntries
  simpa only [List.map_cons, List.map_nil, List.cons.injEq, and_assoc, and_true] using
    And.intro resolve_byte_names resolve_word_names

end Sys2Proof.Machine
end

section
/-! The operand order of the formatter (42_instruction_formatter.md R74): the two values of the
direction flag, and what flipping it alone does to the two names. -/

namespace Sys2Proof.Machine

section
variable {f : Fields}

theorem destination_of_direction_set (h : f.d = true) : destination f = resolve f.reg f.w :=
  if_pos h

theorem source_of_direction_set (h : f.d = true) : source f = resolve f.rm f.w :=
  if_pos h

theorem destination_of_direction_clear (h : f.d = false) : destination f = resolve f.rm f.w :=
  if_neg (Bool.eq_false_iff.1 h)

theorem source_of_direction_clear (h : f.d = false) : source f = resolve f.reg f.w :=
  if_neg (Bool.eq_false_iff.1 h)

variable (f)

theorem destination_flip_direction : destination { f with d := !f.d } = source f := by
  cases h : f.d with
  | false => rw [source_of_direction_clear h, destination_of_direction_set rfl]
  | true => rw [source_of_direction_set h, destination_of_direction_clear rfl]

/-- Two flips restore the fields, so the other half of the swap is the first one read backwards. -/
theorem source_flip_direction : source { f with d := !f.d } = destination f := by
  rw [← destination_flip_direction, Bool.not_not]

end

/-- Settles O16: each value of the flag by its own equation, the exchange by the flip at `d = 0`. -/
theorem directionFlagOrdersOperands : Obligations.DirectionFlagOrdersOperands := by
  unfold Obligations.DirectionFlagOrdersOperands
  intro w reg rm
  exact ⟨destination_of_direction_set rfl, source_of_direction_set rfl,
    destination_of_direction_clear rfl, source_of_direction_clear rfl,
    destination_flip_direction ⟨false, w, reg, rm⟩, source_flip_direction ⟨false, w, reg, rm⟩⟩

end Sys2Proof.Machine
end

section
/-! The decode step at an encoded instruction (43_mov_rm_r.md R79 to R82): the two bytes of an instruction
are classified as its fields, whatever follows them, so the step that meets them runs it. -/

namespace Sys2Proof.Machine

theorem classify_encode (i : Instr) (rest : List Byte) : classify (encode i ++ rest) = .ok i.fields := by
  obtain ⟨hop, hd, hw⟩ := byte0_fields i.fields.d i.fields.w
  obtain ⟨hmod, hreg, hrm⟩ := byte1_fields i.fields.reg i.fields.rm
  calc classify (encode i ++ rest)
      = .ok ⟨directionBit i.fields.byte0, widthBit i.fields.byte0, regBits i.fields.byte1,
          rmBits i.fields.byte1⟩ := classify_match rest hop hmod
    _ = .ok i.fields := by rw [Fields.byte0, Fields.byte1, hd, hw, hreg, hrm]

/-- The report on a window that is exactly the encoding of `i`: count 2 and the line of `i`. -/
theorem decode_of_encode_eq (i : Instr) {window : List Byte} {line : Text} (hw : encode i = window)
    (hline : i.line = line) : decode window = .ok (2, line) := by
  subst hw hline
  exact decode_of_classify_ok (classify_encode i [])

/-- Two bytes that exist at the offset are the first two of the window. -/
theorem RunState.window_of_two_reads {r : RunState} {image : Memory} {b0 b1 : Byte}
    (hlen : r.offset + 1 < image.size) (h0 : image.read r.offset = some b0)
    (h1 : image.read (r.offset + 1) = some b1) : ∃ rest, r.window image = b0 :: b1 :: rest := by
  obtain ⟨n, hn⟩ : ∃ n, image.size - r.offset = n + 2 := ⟨image.size - r.offset - 2, by omega⟩
  exact ⟨image.readFrom (r.offset + 2) n, by simp only [RunState.window, hn, Memory.readFrom, h0, h1]⟩

theorem step_of_classify_ok {s : State} {f : Fields} (hf : s.run.fault = none)
    (hl : s.run.offset < s.image.size) (hc : classify (s.run.window s.image) = .ok f) :
    step s = exec f.instr s :=
  (step_of_decodeStep (decodeStep_accept hf hl hc)).trans (exec_instr f s).symm

/-- In a running state whose next two bytes encode `i`, the step is `i`. -/
theorem step_of_encoded (i : Instr) {b0 : Byte} (hb0 : i.fields.byte0 = b0) (s : State)
    (hf : s.run.fault = none) (hlen : s.run.offset + 1 < s.image.size)
    (h0 : s.image.read s.run.offset = some b0)
    (h1 : s.image.read (s.run.offset + 1) = some i.fields.byte1) : step s = exec i s := by
  subst hb0
  obtain ⟨rest, hwindow⟩ := RunState.window_of_two_reads hlen h0 h1
  have hc : classify (s.run.window s.image) = .ok i.fields := by
    rw [hwindow]
    exact classify_encode i rest
  rw [step_of_classify_ok hf (by omega) hc, Instr.fields_instr]

section
variable (reg rm : Selector)

theorem byte0_movRm8R8 : (Instr.movRm8R8 reg rm).fields.byte0 = 0x88#8 :=
  show opcodePattern ++ BitVec.ofBool false ++ BitVec.ofBool false = 0x88#8 by decide

theorem byte0_movRm16R16 : (Instr.movRm16R16 reg rm).fields.byte0 = 0x89#8 :=
  show opcodePattern ++ BitVec.ofBool false ++ BitVec.ofBool true = 0x89#8 by decide

theorem byte0_movR8Rm8 : (Instr.movR8Rm8 reg rm).fields.byte0 = 0x8A#8 :=
  show opcodePattern ++ BitVec.ofBool true ++ BitVec.ofBool false = 0x8A#8 by decide

theorem byte0_movR16Rm16 : (Instr.movR16Rm16 reg rm).fields.byte0 = 0x8B#8 :=
  show opcodePattern ++ BitVec.ofBool true ++ BitVec.ofBool true = 0x8B#8 by decide

end

/-- With `d = 0` the instruction prints the name of `rm`, then that of `reg`, both of width `w`. -/
theorem exec_of_direction_clear (w : Bool) (reg rm : Selector) (s : State) :
    exec (Fields.instr ⟨false, w, reg, rm⟩) s =
      .next { s with run := s.run.retire (movLine (resolve rm w) (resolve reg w)) } := by
  rw [exec_instr, formatLine, destination_of_direction_clear rfl, source_of_direction_clear rfl]

/-- With `d = 1` the instruction prints the name of `reg`, then that of `rm`, both of width `w`. -/
theorem exec_of_direction_set (w : Bool) (reg rm : Selector) (s : State) :
    exec (Fields.instr ⟨true, w, reg, rm⟩) s =
      .next { s with run := s.run.retire (movLine (resolve reg w) (resolve rm w)) } := by
  rw [exec_instr, formatLine, destination_of_direction_set rfl, source_of_direction_set rfl]

/-- Settles O19: the effect at `d = 0`, `w = 0`, the step at the encoding, the row of byte names, and the
report on the encodings of `(5, 5)` and `(1, 0)`. -/
theorem movRm8R8PrintsRmThenReg : Obligations.MovRm8R8PrintsRmThenReg := by
  unfold Obligations.MovRm8R8PrintsRmThenReg
  exact ⟨exec_of_direction_clear false,
    fun reg rm => step_of_encoded (.movRm8R8 reg rm) (byte0_movRm8R8 reg rm),
    resolve_byte_names,
    decode_of_encode_eq (.movRm8R8 5#3 5#3) (by decide) (by decide),
    decode_of_encode_eq (.movRm8R8 1#3 0#3) (by decide) (by decide)⟩

/-- Settles O20: the effect at `d = 0`, `w = 1`, the step at the encoding, the row of word names, and the
report on the encodings of `(4, 4)` and `(0, 3)`. -/
theorem movRm16R16PrintsRmThenReg : Obligations.MovRm16R16PrintsRmThenReg := by
  unfold Obligations.MovRm16R16PrintsRmThenReg
  exact ⟨exec_of_direction_clear true,
    fun reg rm => step_of_encoded (.movRm16R16 reg rm) (byte0_movRm16R16 reg rm),
    resolve_word_names,
    decode_of_encode_eq (.movRm16R16 4#3 4#3) (by decide) (by decide),
    decode_of_encode_eq (.movRm16R16 0#3 3#3) (by decide) (by decide)⟩

/-- Settles O21: the effect at `d = 1`, `w = 0`, the step at the encoding, the row of byte names, and the
report on the encodings of `(5, 5)`, which is that of `MOV r/m8, r8` too, and `(1, 0)`. -/
theorem movR8Rm8PrintsRegThenRm : Obligations.MovR8Rm8PrintsRegThenRm := by
  unfold Obligations.MovR8Rm8PrintsRegThenRm
  have hcorner := decode_of_encode_eq (.movR8Rm8 5#3 5#3) (window := [0x8A#8, 0xED#8]) (by decide) rfl
  have hmirror := decode_of_encode_eq (.movRm8R8 5#3 5#3) (window := [0x88#8, 0xED#8]) (by decide) rfl
  exact ⟨exec_of_direction_set false,
    fun reg rm => step_of_encoded (.movR8Rm8 reg rm) (byte0_movR8Rm8 reg rm),
    resolve_byte_names, hcorner.trans hmirror.symm, hcorner,
    decode_of_encode_eq (.movR8Rm8 1#3 0#3) (by decide) (by decide)⟩

/-- Settles O22: the effect at `d = 1`, `w = 1`, the step at the encoding, the row of word names, and the
report on the encodings of `(4, 4)` and `(0, 3)`. -/
theorem movR16Rm16PrintsRegThenRm : Obligations.MovR16Rm16PrintsRegThenRm := by
  unfold Obligations.MovR16Rm16PrintsRegThenRm
  exact ⟨exec_of_direction_set true,
    fun reg rm => step_of_encoded (.movR16Rm16 reg rm) (byte0_movR16Rm16 reg rm),
    resolve_word_names,
    decode_of_encode_eq (.movR16Rm16 4#3 4#3) (by decide) (by decide),
    decode_of_encode_eq (.movR16Rm16 0#3 3#3) (by decide) (by decide)⟩

end Sys2Proof.Machine
end

section
/-! Where a decode step exists and what it does (44_stream_walker.md R87 to R89): it is enabled exactly in
a running state, and its next state is the one the decoder's report on the window gives. -/

namespace Sys2Proof.Machine

/-- A decode step has a next state exactly where it is enabled (R88). -/
theorem decodeStep_enabled_iff (image : Memory) (r : RunState) :
    (∃ t, decodeStep image r = .next t) ↔ r.fault = none ∧ r.offset < image.size := by
  constructor
  · rintro ⟨t, h⟩
    obtain ⟨hf, hl, -⟩ := decodeStep_cases h
    exact ⟨hf, hl⟩
  · rintro ⟨hf, hl⟩
    cases hc : classify (r.window image) with
    | ok f => exact ⟨_, decodeStep_accept hf hl hc⟩
    | error kind => exact ⟨_, decodeStep_reject hf hl hc⟩

/-- The states with no next state are those of `DONE` and those of `FAILED` (R89). -/
theorem decodeStep_terminal_iff (image : Memory) (r : RunState) :
    (¬ ∃ t, decodeStep image r = .next t) ↔
      (r.fault = none ∧ image.size ≤ r.offset) ∨ r.fault ≠ none := by
  rw [decodeStep_enabled_iff]
  by_cases hf : r.fault = none
  · simp [hf]
  · simp [hf]

theorem step_enabled_iff (s : State) :
    (∃ t, step s = .next t) ↔ ∃ r, decodeStep s.image s.run = .next r := by
  constructor
  · rintro ⟨t, h⟩
    obtain ⟨r, hr, -⟩ := step_cases h
    exact ⟨r, hr⟩
  · rintro ⟨r, hr⟩
    exact ⟨_, step_of_decodeStep hr⟩

/-- A state with no next state stays as it is for any number of steps. -/
theorem runSteps_terminal {image : Memory} {r : RunState} (n : Nat)
    (h : ¬ ∃ t, decodeStep image r = .next t) : runSteps image n r = r := by
  cases hh : r.halted image.size with
  | some f => exact runSteps_halted n hh
  | none => exact absurd ((decodeStep_enabled_iff image r).2 ((r.halted_eq_none_iff _).1 hh)) h

/-- In canonical form the window is the suffix of the image from the offset on (10_state.md R23). -/
theorem RunState.window_of_wf (r : RunState) {image : Memory} (h : image.wf) :
    r.window image = image.bytes.drop r.offset :=
  Memory.readFrom_of_wf h r.offset

/-- Settles O26: the report is the classifier's answer, which is the branch the step takes; outside the
running states no step is enabled. -/
theorem decodeStepOfStreamWalker : Obligations.DecodeStepOfStreamWalker := by
  unfold Obligations.DecodeStepOfStreamWalker
  refine ⟨fun image r hf hl => ?_, fun image r h => ?_, fun image r => r.window_of_wf⟩
  · cases hc : classify (r.window image) with
    | ok f =>
      rw [decode_of_classify_ok hc]
      exact ⟨rfl, decodeStep_accept hf hl hc⟩
    | error kind =>
      rw [decode_of_classify_error hc]
      exact decodeStep_reject hf hl hc
  · rwa [decodeStep_enabled_iff]

/-- Settles O28: a step exists exactly where it is enabled, and the rest of the states are the phases
`DONE` and `FAILED`. -/
theorem terminalStatesHaveNoStep : Obligations.TerminalStatesHaveNoStep := by
  unfold Obligations.TerminalStatesHaveNoStep
  exact ⟨decodeStep_terminal_iff, fun s => not_congr (step_enabled_iff s), RunState.phase_eq_done_iff,
    RunState.phase_eq_failed_iff, fun _ _ n => runSteps_terminal n, rfl⟩

end Sys2Proof.Machine
end

section
/-! The states of a run (44_stream_walker.md R90, R92): where the offset stands, what `out` holds and which
failure is recorded after `k` successful decode steps, and the result of the run in each phase. -/

namespace Sys2Proof.Machine

theorem RunState.window_ofBytes (r : RunState) (image : Text) :
    r.window (Memory.ofBytes image) = image.drop r.offset := by
  rw [r.window_of_wf (Memory.ofBytes_wf image), Memory.ofBytes_bytes]

section
variable {image : Memory} {r t : RunState} (h : decodeStep image r = .next t)
include h

/-- A step that leaves `fault` at none accepted an instruction. -/
theorem decodeStep_succeeded (hf : t.fault = none) :
    ∃ f, classify (r.window image) = .ok f ∧ t = r.retire (formatLine f) := by
  obtain ⟨-, -, haccept | ⟨kind, -, rfl⟩⟩ := decodeStep_cases h
  · exact haccept
  · simp at hf

/-- A step that records a failure took the one of the classifier. -/
theorem decodeStep_failed (hf : t.fault ≠ none) :
    ∃ kind, classify (r.window image) = .error kind ∧ t = r.raise kind := by
  obtain ⟨hnone, -, ⟨f, -, rfl⟩ | hreject⟩ := decodeStep_cases h
  · exact absurd hnone hf
  · exact hreject

end

theorem lineAt_of_classify_ok {image : Text} {o : Nat} {f : Fields}
    (h : classify (image.drop o) = .ok f) : lineAt image o = formatLine f := by
  simp only [lineAt, h]

section
variable {image : Text} {k : Nat} {r : RunState} (h : Reachable image k r)
include h

/-- Each successful step advances the offset by 2, a failing one leaves it (R92 (a)). -/
theorem Reachable.offset_eq : r.offset = 2 * k := by
  induction h with
  | start => rfl
  | decoded _ hstep hf ih =>
    obtain ⟨f, -, rfl⟩ := decodeStep_succeeded hstep hf
    rw [RunState.retire_offset, ih, Nat.mul_succ]
  | failed _ hstep hf ih =>
    obtain ⟨kind, -, rfl⟩ := decodeStep_failed hstep hf
    exact ih

/-- `out` is the header followed by the lines of the instructions decoded so far (R92 (d)). -/
theorem Reachable.out_bytes_eq : r.out.bytes = headerLine ++ linesUpTo image k := by
  induction h with
  | start => rfl
  | @decoded k r _ hreach hstep hf ih =>
    obtain ⟨f, hc, rfl⟩ := decodeStep_succeeded hstep hf
    rw [RunState.window_ofBytes, hreach.offset_eq] at hc
    calc (r.retire (formatLine f)).out.bytes
        = (headerLine ++ linesUpTo image k) ++ formatLine f := by
          rw [RunState.retire_out, Memory.append_bytes, ih]
      _ = headerLine ++ linesUpTo image (k + 1) := by
          rw [linesUpTo, lineAt_of_classify_ok hc, List.append_assoc]
  | failed _ hstep hf ih =>
    obtain ⟨kind, -, rfl⟩ := decodeStep_failed hstep hf
    exact ih

/-- A recorded failure is the decoder's report on the image from the offset on (R92 (e)). -/
theorem Reachable.fault_is_decoders {kind : FailureKind} (hkind : r.fault = some kind) :
    decode (image.drop r.offset) = .error kind := by
  cases h with
  | start => simp at hkind
  | decoded _ _ hf => simp [hf] at hkind
  | @failed k r _ _ hstep hf =>
    obtain ⟨kind', hc, rfl⟩ := decodeStep_failed hstep hf
    obtain rfl : kind' = kind := Option.some.inj hkind
    rw [RunState.window_ofBytes] at hc
    exact decode_of_classify_error hc

end

section
variable {r : RunState} {len : Nat}

theorem RunState.result_of_done (h : r.phase len = .done) : r.result len = some (.ok r.out.bytes) := by
  simp only [RunState.result, h]

theorem RunState.result_of_running (h : r.phase len = .running) : r.result len = none := by
  simp only [RunState.result, h]

theorem RunState.result_of_fault {kind : FailureKind} (h : r.fault = some kind) :
    r.result len = some (.error kind) := by
  simp only [RunState.result, RunState.phase_of_fault_some h, h]

theorem RunState.status_textValid_of_fault {kind : FailureKind} (h : r.fault = some kind) :
    (r.status len).textValid = false := by
  rw [Bool.eq_false_iff, Ne, RunState.status_textValid_iff, RunState.phase_of_fault_some h]
  decide

end

/-- Settles O42: the result phase by phase, and the invariants of the states of a run where `fault` is a
kind. -/
theorem resultOfRun : Obligations.ResultOfRun := by
  unfold Obligations.ResultOfRun
  refine ⟨fun r len hdone => ?_, fun r len kind hkind => ?_, fun r len => RunState.result_of_running,
    fun image k r kind hreach hkind => ?_⟩
  · exact ⟨RunState.result_of_done hdone, (r.status_textValid_iff len).2 hdone⟩
  · exact ⟨RunState.result_of_fault hkind, RunState.status_textValid_of_fault hkind⟩
  · exact ⟨hreach.out_bytes_eq, hreach.offset_eq, hreach.fault_is_decoders hkind⟩

end Sys2Proof.Machine
end

section
/-! Failure entry (60_exceptions.md R96 to R98, R100): which window each kind of failure stands for, that
a step records exactly the kind of the classifier's answer, and that no step follows. -/

namespace Sys2Proof

section
variable (b0 b1 : Byte) (rest : List Byte)

theorem classify_eq_unsupportedOpcode_iff :
    classify (b0 :: rest) = .error .unsupportedOpcode ↔ opcodeBits b0 ≠ opcodePattern := by
  refine ⟨fun h hop => ?_, classify_opcode_mismatch rest⟩
  cases rest with
  | nil => simp [classify_one_byte hop] at h
  | cons b1 rest =>
    by_cases hmod : modBits b1 = modRegister
    · simp [classify_match rest hop hmod] at h
    · simp [classify_mode_mismatch rest hop hmod] at h

theorem classify_eq_unsupportedAddressingMode_iff :
    classify (b0 :: b1 :: rest) = .error .unsupportedAddressingMode ↔
      opcodeBits b0 = opcodePattern ∧ modBits b1 ≠ modRegister := by
  refine ⟨fun h => ?_, fun ⟨hop, hmod⟩ => classify_mode_mismatch rest hop hmod⟩
  by_cases hop : opcodeBits b0 = opcodePattern
  · refine ⟨hop, fun hmod => ?_⟩
    simp [classify_match rest hop hmod] at h
  · simp [classify_opcode_mismatch (b1 :: rest) hop] at h

theorem classify_eq_truncatedInstruction_iff :
    classify (b0 :: rest) = .error .truncatedInstruction ↔ opcodeBits b0 = opcodePattern ∧ rest = [] := by
  refine ⟨fun h => ?_, fun ⟨hop, hnil⟩ => hnil ▸ classify_one_byte hop⟩
  by_cases hop : opcodeBits b0 = opcodePattern
  · refine ⟨hop, ?_⟩
    cases rest with
    | nil => rfl
    | cons b1 rest =>
      by_cases hmod : modBits b1 = modRegister
      · simp [classify_match rest hop hmod] at h
      · simp [classify_mode_mismatch rest hop hmod] at h
  · simp [classify_opcode_mismatch rest hop] at h

end

end Sys2Proof

namespace Sys2Proof.Machine

/-- The decoder fails with a kind exactly when the classifier does. -/
theorem decode_eq_error_iff (window : List Byte) (kind : FailureKind) :
    decode window = .error kind ↔ classify window = .error kind := by
  cases hc : classify window with
  | ok f => simp [decode_of_classify_ok hc]
  | error kind' => simp [decode_of_classify_error hc]

/-- The byte that exists at the offset is the first of the window. -/
theorem RunState.window_of_read {r : RunState} {image : Memory} {b0 : Byte}
    (hlen : r.offset < image.size) (h0 : image.read r.offset = some b0) :
    r.window image = b0 :: image.readFrom (r.offset + 1) (image.size - (r.offset + 1)) := by
  have hsucc : image.size - r.offset = image.size - (r.offset + 1) + 1 := by omega
  simp only [RunState.window, hsucc, Memory.readFrom, h0]

/-- In a running state the step enters the failure `kind` exactly when the classifier rejects the window
with `kind`. -/
theorem step_eq_raise_iff {s : State} (kind : FailureKind) (hf : s.run.fault = none)
    (hl : s.run.offset < s.image.size) :
    step s = .next { s with run := s.run.raise kind } ↔
      classify (s.run.window s.image) = .error kind := by
  refine ⟨fun h => ?_, fun hc => step_of_decodeStep (decodeStep_reject hf hl hc)⟩
  obtain ⟨t, ht, heq⟩ := step_cases h
  obtain rfl : s.run.raise kind = t := congrArg State.run heq
  obtain ⟨kind', hc, hraise⟩ := decodeStep_failed ht (by simp)
  obtain rfl : kind = kind' := Option.some.inj (congrArg RunState.fault hraise)
  exact hc

theorem step_terminal_of_fault {s : State} (h : s.run.fault ≠ none) : ¬ ∃ t, step s = .next t := by
  rw [step_enabled_iff]
  exact (decodeStep_terminal_iff _ _).2 (.inr h)

/-- Settles O36: the window begins with the byte at the offset, and a mismatch of its opcode bits is the
classifier's one reason for this kind. -/
theorem unsupportedOpcodeFailure : Obligations.UnsupportedOpcodeFailure := by
  unfold Obligations.UnsupportedOpcodeFailure
  intro s b0 hf hl h0
  have hentry := step_eq_raise_iff .unsupportedOpcode hf hl
  rw [RunState.window_of_read hl h0, classify_eq_unsupportedOpcode_iff] at hentry
  exact hentry.symm

/-- Settles O37: with two bytes left the window begins with both, and this kind is a match of the first
and a mismatch of the second. -/
theorem unsupportedAddressingModeFailure : Obligations.UnsupportedAddressingModeFailure := by
  unfold Obligations.UnsupportedAddressingModeFailure
  intro s b0 b1 hf hl h0 h1
  obtain ⟨rest, hwindow⟩ := RunState.window_of_two_reads hl h0 h1
  have hentry := step_eq_raise_iff .unsupportedAddressingMode hf (by omega)
  rw [hwindow, classify_eq_unsupportedAddressingMode_iff] at hentry
  exact hentry.symm

/-- Settles O38: in canonical form the window past its first byte is a suffix of the image, empty exactly
when that byte is the last one. -/
theorem truncatedInstructionFailure : Obligations.TruncatedInstructionFailure := by
  unfold Obligations.TruncatedInstructionFailure
  refine ⟨fun s b0 hf hwf hl h0 => ?_, decode_of_classify_error classify_empty⟩
  have hlast : s.image.bytes.drop (s.run.offset + 1) = [] ↔ s.run.offset + 1 = s.image.size := by
    rw [List.drop_eq_nil_iff, Memory.bytes_length]
    omega
  have hentry := step_eq_raise_iff .truncatedInstruction hf hl
  rw [RunState.window_of_read hl h0, classify_eq_truncatedInstruction_iff, Memory.readFrom_of_wf hwf,
    hlast] at hentry
  exact hentry.symm

/-- Settles O39: the step is the failure entry of the decoder's kind, and a state with a failure in
`fault` has no step. -/
theorem failureEntryEndsRun : Obligations.FailureEntryEndsRun := by
  unfold Obligations.FailureEntryEndsRun
  intro s kind hf hl hdecode
  have hstep := (step_eq_raise_iff kind hf hl).2 ((decode_eq_error_iff _ kind).1 hdecode)
  have hover := step_terminal_of_fault (s := { s with run := s.run.raise kind }) (by simp)
  exact ⟨_, hstep, rfl, rfl, rfl, rfl, RunState.phase_of_fault_some rfl _, hover,
    fun n => runSteps_terminal n (mt (step_enabled_iff _).2 hover)⟩

end Sys2Proof.Machine
end

section
/-! The first failure of a run (60_exceptions.md R101): the state after `k` accepted instructions, the
final state when the next one is rejected, and what of the image they depend on. -/

namespace Sys2Proof

/-- The classifier looks at the first two bytes only (41_opcode_classifier.md R70). -/
theorem classify_congr {v v' : List Byte} (h0 : v[0]? = v'[0]?) (h1 : v[1]? = v'[1]?) :
    classify v = classify v' := by
  rw [classify, classify, h0, h1]

/-- Bytes from `n` on play no part in the classification of an instruction that ends by `n`. -/
theorem classify_drop_take_append {image : Text} (later : Text) {o n : Nat} (ho : o + 2 ≤ n)
    (hn : n ≤ image.length) :
    classify ((image.take n ++ later).drop o) = classify (image.drop o) := by
  have hbyte : ∀ i, i < n → (image.take n ++ later)[i]? = image[i]? := fun i hi => by
    rw [List.getElem?_append_left (by simp; omega), List.getElem?_take_of_lt hi]
  apply classify_congr
  · simp only [List.getElem?_drop, hbyte (o + 0) (by omega)]
  · simp only [List.getElem?_drop, hbyte (o + 1) (by omega)]

/-- An accepted instruction stands inside the image. -/
theorem lt_length_of_classify_ok {image : Text} {o : Nat} {f : Fields}
    (h : classify (image.drop o) = .ok f) : o < image.length := by
  by_contra hge
  rw [List.drop_eq_nil_of_le (by omega), classify_empty] at h
  simp at h

end Sys2Proof

namespace Sys2Proof.Machine

theorem exists_classify_of_decode_ok {window : List Byte} {n : Nat} {line : Text}
    (h : decode window = .ok (n, line)) : ∃ f, classify window = .ok f := by
  cases hc : classify window with
  | ok f => exact ⟨f, rfl⟩
  | error kind => simp [decode_of_classify_error hc] at h

theorem Memory.ofBytes_append (t u : Text) :
    (Memory.ofBytes t).append u = Memory.ofBytes (t ++ u) :=
  Memory.eq_of_bytes_eq (Memory.append_wf u (Memory.ofBytes_wf t)) (Memory.ofBytes_wf _) (by simp)

theorem linesUpTo_congr {image image' : Text} {k : Nat}
    (h : ∀ i, i < k → classify (image'.drop (2 * i)) = classify (image.drop (2 * i))) :
    linesUpTo image' k = linesUpTo image k := by
  induction k with
  | zero => rfl
  | succ k ih =>
    rw [linesUpTo, linesUpTo, ih fun i hi => h i (by omega), lineAt, lineAt, h k (by omega)]

/-- The first `k` instructions of the image are accepted. -/
def AcceptedUpTo (image : Text) (k : Nat) : Prop :=
  ∀ i, i < k → ∃ f, classify (image.drop (2 * i)) = .ok f

/-- The state of the run over `image` once its first `k` instructions are decoded
(44_stream_walker.md R92). -/
def RunState.afterInstrs (image : Text) (k : Nat) : RunState :=
  { offset := 2 * k, out := Memory.ofBytes (headerLine ++ linesUpTo image k), fault := none }

theorem RunState.afterInstrs_zero (image : Text) : RunState.afterInstrs image 0 = RunState.initial := rfl

section
variable {image : Text} {k : Nat}

theorem RunState.afterInstrs_window :
    (RunState.afterInstrs image k).window (Memory.ofBytes image) = image.drop (2 * k) :=
  RunState.window_ofBytes _ _

theorem RunState.retire_afterInstrs {f : Fields} (h : classify (image.drop (2 * k)) = .ok f) :
    (RunState.afterInstrs image k).retire (formatLine f) = RunState.afterInstrs image (k + 1) := by
  simp only [RunState.retire, RunState.afterInstrs, consumedBytes, linesUpTo, lineAt_of_classify_ok h,
    Memory.ofBytes_append, List.append_assoc, Nat.mul_succ]

theorem decodeStep_afterInstrs_accept {f : Fields} (h : classify (image.drop (2 * k)) = .ok f) :
    decodeStep (Memory.ofBytes image) (RunState.afterInstrs image k) =
      .next (RunState.afterInstrs image (k + 1)) := by
  rw [← RunState.retire_afterInstrs h]
  refine decodeStep_accept rfl ?_ (RunState.afterInstrs_window.symm ▸ h)
  rw [Memory.ofBytes_size]
  exact lt_length_of_classify_ok h

theorem decodeStep_afterInstrs_reject {kind : FailureKind} (hlt : 2 * k < image.length)
    (h : classify (image.drop (2 * k)) = .error kind) :
    decodeStep (Memory.ofBytes image) (RunState.afterInstrs image k) =
      .next ((RunState.afterInstrs image k).raise kind) := by
  refine decodeStep_reject rfl ?_ (RunState.afterInstrs_window.symm ▸ h)
  rw [Memory.ofBytes_size]
  exact hlt

/-- The first `k` steps of a run over an image whose first `k` instructions are accepted. -/
theorem runSteps_afterInstrs (h : AcceptedUpTo image k) (n : Nat) :
    runSteps (Memory.ofBytes image) (k + n) RunState.initial =
      runSteps (Memory.ofBytes image) n (RunState.afterInstrs image k) := by
  induction k generalizing n with
  | zero => rw [Nat.zero_add, RunState.afterInstrs_zero]
  | succ k ih =>
    obtain ⟨f, hf⟩ := h k (by omega)
    rw [Nat.add_assoc, Nat.add_comm 1 n, ih fun i hi => h i (by omega),
      runSteps_next n (decodeStep_afterInstrs_accept hf)]

/-- A run ends at the first instruction that is rejected, with the decoder's kind. -/
theorem finalState_of_first_rejected {kind : FailureKind} (hacc : AcceptedUpTo image k)
    (hlt : 2 * k < image.length) (hrej : classify (image.drop (2 * k)) = .error kind) :
    finalState image = (RunState.afterInstrs image k).raise kind := by
  obtain ⟨n, hn⟩ : ∃ n, stepBound image.length = k + (n + 1) :=
    ⟨image.length / 2 - k, by rw [stepBound]; omega⟩
  rw [finalState, hn, runSteps_afterInstrs hacc, runSteps_next n (decodeStep_afterInstrs_reject hlt hrej)]
  exact runSteps_terminal n ((decodeStep_terminal_iff _ _).2 (.inr (by simp)))

/-- What follows the two bytes of the first rejected instruction does not change the final state. -/
theorem finalState_take_append {kind : FailureKind} (later : Text) (hacc : AcceptedUpTo image k)
    (hlen : 2 * k + 2 ≤ image.length) (hrej : classify (image.drop (2 * k)) = .error kind) :
    finalState (image.take (2 * k + 2) ++ later) = finalState image := by
  have hsame : ∀ i, i ≤ k → classify ((image.take (2 * k + 2) ++ later).drop (2 * i)) =
      classify (image.drop (2 * i)) := fun i hi => classify_drop_take_append later (by omega) hlen
  have hacc' : AcceptedUpTo (image.take (2 * k + 2) ++ later) k := fun i hi => by
    rw [hsame i (by omega)]
    exact hacc i hi
  rw [finalState_of_first_rejected hacc (by omega) hrej,
    finalState_of_first_rejected hacc' (by simp; omega) ((hsame k le_rfl).trans hrej),
    RunState.afterInstrs, RunState.afterInstrs, linesUpTo_congr fun i hi => hsame i (by omega)]

end

/-- Settles O40: the four windows are rows of the classifier; the run stops at the first rejected
instruction, and the final state depends on the image up to that instruction's two bytes. -/
theorem firstFailureIsReported : Obligations.FirstFailureIsReported := by
  unfold Obligations.FirstFailureIsReported
  refine ⟨decode_of_classify_error (classify_opcode_mismatch _ (by decide)),
    decode_of_classify_error (classify_opcode_mismatch _ (by decide)),
    decode_of_classify_error (classify_one_byte (by decide)),
    decode_of_classify_error (classify_mode_mismatch _ (by decide) (by decide)),
    fun image later j kind haccepted hlt hdecode => ?_⟩
  have hacc : AcceptedUpTo image j := fun i hi =>
    (haccepted i hi).elim fun _ => exists_classify_of_decode_ok
  have hrej := (decode_eq_error_iff _ kind).1 hdecode
  have hfinal := finalState_of_first_rejected hacc hlt hrej
  have hfault : (finalState image).fault = some kind := by rw [hfinal, RunState.raise_fault]
  refine ⟨hfault, ?_, fun hlen => ?_⟩
  · rw [hfinal, RunState.raise_offset, RunState.afterInstrs]
  · rw [finalState_take_append later hacc hlen hrej]
    exact ⟨hfault, rfl⟩

end Sys2Proof.Machine
end

section
/-! The start event (70_reset_and_hazards.md R112): the phase it leaves the block in, and the start state. -/

namespace Sys2Proof.Machine

section
variable (s : State) (image : Text)

theorem State.start_phase_eq_running_iff : (s.start image).phase = .running ↔ 0 < image.length := by
  rw [RunState.phase_eq_running_iff, State.start_image, Memory.ofBytes_size, State.start_run]
  exact and_iff_right RunState.initial_fault

theorem State.start_phase_eq_done_iff : (s.start image).phase = .done ↔ image.length = 0 := by
  rw [RunState.phase_eq_done_iff, State.start_image, Memory.ofBytes_size, State.start_run,
    RunState.initial_offset, Nat.le_zero]
  exact and_iff_right RunState.initial_fault

end

/-- Settles O1: the run is the initial one, both spaces are built from byte sequences, and the phase
follows from the image's length. -/
theorem startEventSetsStartState : Obligations.StartEventSetsStartState := by
  unfold Obligations.StartEventSetsStartState
  intro s image
  have himage := s.start_image image
  have hrun := s.start_run image
  refine ⟨?offset, ?out, ?fault, ?bytes, ?imageWf, ?outWf,
    (s.start_phase_eq_running_iff image).2, (s.start_phase_eq_done_iff image).2⟩
  case offset => rw [hrun, RunState.initial_offset]
  case out => rw [hrun, RunState.initial_out, headerLine]
  case fault => rw [hrun, RunState.initial_fault]
  case bytes => rw [himage, Memory.ofBytes_bytes]
  case imageWf => exact himage ▸ Memory.ofBytes_wf image
  case outWf => exact hrun ▸ Memory.ofBytes_wf headerLine

end Sys2Proof.Machine
end

section
/-! Encoder and decoder are inverse (30_encoding.md sections 1 and 2): an instruction is read back from its
two bytes, and an accepted window begins with the two bytes of its fields. -/

namespace Sys2Proof

theorem decodeInstr_eq_ok_iff {window : List Byte} {i : Instr} :
    decodeInstr window = .ok i ↔ classify window = .ok i.fields := by
  refine ⟨fun h => ?_, fun h => by rw [decodeInstr_of_classify_ok h, Instr.fields_instr]⟩
  cases hc : classify window with
  | error kind => simp [decodeInstr_of_classify_error hc] at h
  | ok f =>
    rw [decodeInstr_of_classify_ok hc] at h
    rw [← Except.ok.inj h, Fields.instr_fields]

theorem Instr.wellFormed_eq_true (i : Instr) : i.wellFormed = true := by
  cases i <;> exact decide_eq_true (Laws.EncodedShape.selectors_bounded _ _)

/-- A byte with the opcode pattern is byte 0 of its two flags. -/
theorem byte0_of_opcode_match : ∀ b0 : Byte, opcodeBits b0 = opcodePattern →
    opcodePattern ++ BitVec.ofBool (directionBit b0) ++ BitVec.ofBool (widthBit b0) = b0 := by
  decide

/-- A byte with the register mode is byte 1 of its two selectors. -/
theorem byte1_of_mode_match : ∀ b1 : Byte, modBits b1 = modRegister →
    modRegister ++ regBits b1 ++ rmBits b1 = b1 := by
  decide

theorem window_eq_of_classify_ok {window : List Byte} {f : Fields} (h : classify window = .ok f) :
    window = f.byte0 :: f.byte1 :: window.drop 2 := by
  obtain ⟨b0, b1, rest, rfl, hop, hmod, rfl⟩ := classify_ok_cases h
  rw [Fields.byte0, Fields.byte1, byte0_of_opcode_match b0 hop, byte1_of_mode_match b1 hmod]
  rfl

/-- Settles O13: the classifier reads the fields of `i` from its two bytes, and the fields select `i`. -/
theorem decodeOfEncodeIsIdentity : Obligations.DecodeOfEncodeIsIdentity := by
  unfold Obligations.DecodeOfEncodeIsIdentity
  intro i rest _
  exact decodeInstr_eq_ok_iff.2 (Machine.classify_encode i rest)

/-- Settles O14: the two bytes of an accepted window are rebuilt from the fields the classifier took. -/
theorem encodeOfDecodeIsIdentity : Obligations.EncodeOfDecodeIsIdentity := by
  unfold Obligations.EncodeOfDecodeIsIdentity
  intro window i h
  exact ⟨window_eq_of_classify_ok (decodeInstr_eq_ok_iff.1 h), i.wellFormed_eq_true⟩

end Sys2Proof
end

section
/-! Accepted words (30_encoding.md R44, R45, R49): the classifier's two tests as masks of the bytes, and
acceptance of a window or of an image offset as the one mask on the word. -/

namespace Sys2Proof

theorem opcodeBits_eq_pattern_iff_mask : ∀ b0 : Byte,
    opcodeBits b0 = opcodePattern ↔ b0 &&& 0xFC#8 = 0x88#8 := by
  decide

theorem modBits_eq_register_iff_mask : ∀ b1 : Byte,
    modBits b1 = modRegister ↔ b1 &&& 0xC0#8 = 0xC0#8 := by
  decide

theorem InstrWord.ofBytes_inj {b0 b1 c0 c1 : Byte} :
    InstrWord.ofBytes b0 b1 = InstrWord.ofBytes c0 c1 ↔ b0 = c0 ∧ b1 = c1 := by
  refine ⟨fun h => ?_, fun ⟨h0, h1⟩ => by rw [h0, h1]⟩
  have hhigh := congrArg (BitVec.extractLsb' 8 8) h
  have hlow := congrArg (BitVec.setWidth 8) h
  simp only [InstrWord.ofBytes, BitVec.extractLsb'_append_eq_left,
    BitVec.setWidth_append_eq_right] at hhigh hlow
  exact ⟨hhigh, hlow⟩

theorem InstrWord.and_ofBytes (b0 b1 c0 c1 : Byte) :
    InstrWord.ofBytes b0 b1 &&& InstrWord.ofBytes c0 c1 = InstrWord.ofBytes (b0 &&& c0) (b1 &&& c1) :=
  BitVec.and_append

/-- The mask of R49 splits into the masks of the two bytes. -/
theorem InstrWord.mask_ofBytes_iff (b0 b1 : Byte) :
    InstrWord.ofBytes b0 b1 &&& 0xFCC0#16 = 0x88C0#16 ↔
      opcodeBits b0 = opcodePattern ∧ modBits b1 = modRegister := by
  have hmask : 0xFCC0#16 = InstrWord.ofBytes 0xFC#8 0xC0#8 := by decide
  have hpattern : 0x88C0#16 = InstrWord.ofBytes 0x88#8 0xC0#8 := by decide
  rw [hmask, hpattern, InstrWord.and_ofBytes, InstrWord.ofBytes_inj, opcodeBits_eq_pattern_iff_mask,
    modBits_eq_register_iff_mask]

theorem InstrWord.accepted_ofBytes_iff (b0 b1 : Byte) : (InstrWord.ofBytes b0 b1).accepted = true ↔
    opcodeBits b0 = opcodePattern ∧ modBits b1 = modRegister := by
  rw [InstrWord.accepted, beq_iff_eq, InstrWord.mask_ofBytes_iff]

theorem exists_classify_ok_iff (b0 b1 : Byte) (rest : List Byte) :
    (∃ f, classify (b0 :: b1 :: rest) = .ok f) ↔
      opcodeBits b0 = opcodePattern ∧ modBits b1 = modRegister := by
  refine ⟨fun ⟨f, h⟩ => ?_, fun ⟨hop, hmod⟩ => ⟨_, classify_match rest hop hmod⟩⟩
  obtain ⟨c0, c1, rest', hwindow, hop, hmod, -⟩ := classify_ok_cases h
  simp only [List.cons.injEq] at hwindow
  obtain ⟨rfl, rfl, -⟩ := hwindow
  exact ⟨hop, hmod⟩

/-- An accepted instruction ends inside the image. -/
theorem add_two_le_length_of_classify_ok {image : Text} {o : Nat} {f : Fields}
    (h : classify (image.drop o) = .ok f) : o + 2 ≤ image.length := by
  obtain ⟨b0, b1, rest, hdrop, -⟩ := classify_ok_cases h
  have hlen := congrArg List.length hdrop
  simp only [List.length_drop, List.length_cons] at hlen
  omega

end Sys2Proof

namespace Sys2Proof.Machine

/-- The word at an image offset is accepted exactly when the classifier accepts the window there. -/
theorem wordAcceptedAt_iff (image : Text) (o : Nat) :
    wordAcceptedAt image o ↔ ∃ f, classify (image.drop o) = .ok f := by
  constructor
  · rintro ⟨b0, b1, h0, h1, hword⟩
    have hsame : classify (image.drop o) = classify [b0, b1] :=
      classify_congr (by simp [h0]) (by simp [h1])
    rw [hsame, exists_classify_ok_iff]
    exact (InstrWord.accepted_ofBytes_iff b0 b1).1 hword
  · rintro ⟨f, h⟩
    obtain ⟨b0, b1, rest, hdrop, hop, hmod, -⟩ := classify_ok_cases h
    have hbyte : ∀ i, image[o + i]? = (b0 :: b1 :: rest)[i]? := fun i => by
      rw [← hdrop, List.getElem?_drop]
    exact ⟨b0, b1, hbyte 0, hbyte 1, (InstrWord.accepted_ofBytes_iff b0 b1).2 ⟨hop, hmod⟩⟩

end Sys2Proof.Machine
end

section
/-! The invariant of a run (44_stream_walker.md R92): the start state meets it, and both things a decode step
can do keep it. -/

namespace Sys2Proof.Machine

theorem Inv.of_initial (image : Text) : Inv (Memory.ofBytes image) RunState.initial where
  imageWf := Memory.ofBytes_wf image
  outWf := Memory.ofBytes_wf headerLine
  offsetEven := rfl
  offsetLe := Nat.zero_le _
  outSize := rfl
  outBytes := rfl
  faultIsDecodes := by simp
  faultInside := by simp
  wordsAccepted := by simp

section
variable {image : Memory} {r : RunState} (hinv : Inv image r)
include hinv

theorem Inv.retire {f : Fields} (hf : r.fault = none) (hc : classify (r.window image) = .ok f) :
    Inv image (r.retire (formatLine f)) := by
  rw [r.window_of_wf hinv.imageWf] at hc
  have hlen := add_two_le_length_of_classify_ok hc
  have heven := hinv.offsetEven
  have hoffset : 2 * (r.offset / 2) = r.offset := by omega
  have hcount : (r.offset + 2) / 2 = r.offset / 2 + 1 := by omega
  constructor
  case imageWf => exact hinv.imageWf
  case outWf => exact Memory.append_wf _ hinv.outWf
  case offsetEven => rw [RunState.retire_offset]; omega
  case offsetLe => rwa [← Memory.bytes_length, RunState.retire_offset]
  case outSize =>
    rw [RunState.retire_out, Memory.append_size, hinv.outSize, formatLine_length, RunState.retire_offset,
      hcount]
    omega
  case outBytes =>
    rw [RunState.retire_out, Memory.append_bytes, hinv.outBytes, RunState.retire_offset, hcount, linesUpTo,
      hoffset, lineAt_of_classify_ok hc, List.append_assoc]
  case faultIsDecodes => simp [hf]
  case faultInside => simp [hf]
  case wordsAccepted =>
    intro j hj
    rw [RunState.retire_offset, hcount] at hj
    rcases Nat.lt_succ_iff_lt_or_eq.1 hj with hbefore | rfl
    · exact hinv.wordsAccepted j hbefore
    · rw [hoffset, wordAcceptedAt_iff]
      exact ⟨f, hc⟩

theorem Inv.raise {kind : FailureKind} (hlt : r.offset < image.size)
    (hc : classify (r.window image) = .error kind) : Inv image (r.raise kind) where
  imageWf := hinv.imageWf
  outWf := hinv.outWf
  offsetEven := hinv.offsetEven
  offsetLe := hinv.offsetLe
  outSize := hinv.outSize
  outBytes := hinv.outBytes
  faultIsDecodes := fun kind' hkind => by
    obtain rfl : kind = kind' := Option.some.inj hkind
    exact decode_of_classify_error hc
  faultInside := fun _ => hlt
  wordsAccepted := hinv.wordsAccepted

end

/-- A decode step with a next state accepted an instruction or took a failure; each keeps the invariant. -/
theorem Inv.decodeStep {image : Memory} {r t : RunState} (hinv : Inv image r)
    (h : decodeStep image r = .next t) : Inv image t := by
  obtain ⟨hf, hlt, ⟨f, hc, rfl⟩ | ⟨kind, hc, rfl⟩⟩ := decodeStep_cases h
  · exact hinv.retire hf hc
  · exact hinv.raise hlt hc

/-- Settles O44: the host's step is the decode step with the image unchanged beside it. -/
theorem stepKeepsInvariant : Obligations.StepKeepsInvariant := by
  unfold Obligations.StepKeepsInvariant
  intro s t hinv hstep
  obtain ⟨r, hr, rfl⟩ := step_cases hstep
  exact hinv.decodeStep hr

/-- Settles O43: a start event leaves the initial state of the run, and reset is that of the empty image. -/
theorem startStateMeetsInvariant : Obligations.StartStateMeetsInvariant := by
  unfold Obligations.StartStateMeetsInvariant
  exact ⟨fun _ image => Inv.of_initial image, Inv.of_initial []⟩

end Sys2Proof.Machine
end

section
/-! The decoder as a function of the first two bytes (41_opcode_classifier.md R70, 43_mov_rm_r.md R84): what
its two entry points share with the classifier, and its tests and fields in the arithmetic of 00_scope.md
R8. -/

namespace Sys2Proof

theorem decodeInstr_eq_error_iff {window : List Byte} {kind : FailureKind} :
    decodeInstr window = .error kind ↔ classify window = .error kind := by
  cases hc : classify window with
  | ok f => simp [decodeInstr_of_classify_ok hc]
  | error kind' => simp [decodeInstr_of_classify_error hc]

theorem exists_decodeInstr_ok_iff (window : List Byte) :
    (∃ i, decodeInstr window = .ok i) ↔ ∃ f, classify window = .ok f :=
  ⟨fun ⟨i, h⟩ => ⟨i.fields, decodeInstr_eq_ok_iff.1 h⟩, fun ⟨_, h⟩ => ⟨_, decodeInstr_of_classify_ok h⟩⟩

/-- A selector outside 0..7 never reaches the table, so the classifier has no such failure. -/
theorem classify_ne_lookupFailure (window : List Byte) : classify window ≠ .error .lookupFailure := by
  rcases window with _ | ⟨b0, rest⟩
  · simp [classify_empty]
  by_cases hop : opcodeBits b0 = opcodePattern
  · rcases rest with _ | ⟨b1, rest⟩
    · simp [classify_one_byte hop]
    · by_cases hmod : modBits b1 = modRegister
      · simp [classify_match rest hop hmod]
      · simp [classify_mode_mismatch rest hop hmod]
  · simp [classify_opcode_mismatch rest hop]

section
variable (b : Byte)

theorem opcodeBits_eq_pattern_iff_toNat : opcodeBits b = opcodePattern ↔ b.toNat / 4 % 64 = 34 := by
  rw [← BitVec.toNat_inj, opcodeBits, BitVec.extractLsb'_toNat, Nat.shiftRight_eq_div_pow]
  rfl

theorem modBits_eq_register_iff_toNat : modBits b = modRegister ↔ b.toNat / 64 % 4 = 3 := by
  rw [← BitVec.toNat_inj, modBits, BitVec.extractLsb'_toNat, Nat.shiftRight_eq_div_pow]
  rfl

theorem directionBit_eq_decide : directionBit b = decide (b.toNat / 2 % 2 = 1) :=
  Nat.testBit_eq_decide_div_mod_eq

theorem widthBit_eq_decide : widthBit b = decide (b.toNat % 2 = 1) := by
  rw [widthBit, BitVec.getLsbD, Nat.testBit_eq_decide_div_mod_eq, Nat.pow_zero, Nat.div_one]

theorem regBits_eq_ofNat : regBits b = BitVec.ofNat 3 (b.toNat / 8 % 8) := by
  rw [← BitVec.toNat_inj, regBits, BitVec.extractLsb'_toNat, Nat.shiftRight_eq_div_pow, BitVec.toNat_ofNat,
    Nat.mod_mod]

theorem rmBits_eq_ofNat : rmBits b = BitVec.ofNat 3 (b.toNat % 8) := by
  rw [← BitVec.toNat_inj, rmBits, BitVec.extractLsb'_toNat, BitVec.toNat_ofNat, Nat.mod_mod,
    Nat.shiftRight_zero]

end

/-- Settles O7: the one failing row of the first test, and the opcode pattern over all bytes. -/
theorem opcodeMatchIsFourFirstBytes : Obligations.OpcodeMatchIsFourFirstBytes := by
  unfold Obligations.OpcodeMatchIsFourFirstBytes
  have hlist : ∀ b0 : Byte, opcodeBits b0 = 0b100010#6 ↔
      b0 = 0x88#8 ∨ b0 = 0x89#8 ∨ b0 = 0x8A#8 ∨ b0 = 0x8B#8 := by decide
  refine fun b0 => ⟨?_, opcodeBits_eq_pattern_iff_mask b0, hlist b0⟩
  simp only [ne_eq, decodeInstr_eq_error_iff, classify_eq_unsupportedOpcode_iff, not_not, forall_const]
  rfl

/-- Settles O8: with the opcode matched the mode is the only test left. -/
theorem modeMatchDecidesAcceptance : Obligations.ModeMatchDecidesAcceptance := by
  unfold Obligations.ModeMatchDecidesAcceptance
  have hbound : ∀ b1 : Byte, modBits b1 = 0b11#2 ↔ 0xC0 ≤ b1.toNat := by decide
  intro b0 b1 rest hop
  refine ⟨?_, modBits_eq_register_iff_mask b1, hbound b1⟩
  rw [exists_decodeInstr_ok_iff, exists_classify_ok_iff]
  exact and_iff_right hop

/-- Settles O15: each word is the encoding of its instruction, and the two others are rejected words. -/
theorem workedWordsDecode : Obligations.WorkedWordsDecode := by
  unfold Obligations.WorkedWordsDecode
  decide

end Sys2Proof

namespace Sys2Proof.Machine

theorem exists_decode_ok_iff (window : List Byte) :
    (∃ n line, decode window = .ok (n, line)) ↔ ∃ f, classify window = .ok f :=
  ⟨fun ⟨_, _, h⟩ => exists_classify_of_decode_ok h, fun ⟨_, h⟩ => ⟨_, _, decode_of_classify_ok h⟩⟩

theorem decode_congr {v v' : List Byte} (h0 : v[0]? = v'[0]?) (h1 : v[1]? = v'[1]?) :
    decode v = decode v' := by
  rw [decode, decode, classify_congr h0 h1]

/-- Settles O9: acceptance is the classifier's two tests, which the mask and the byte ranges both state. -/
theorem acceptedCodeSpace : Obligations.AcceptedCodeSpace := by
  unfold Obligations.AcceptedCodeSpace
  have hfirst : ∀ b0 : Byte, opcodeBits b0 = opcodePattern ↔ b0 ∈ [0x88#8, 0x89#8, 0x8A#8, 0x8B#8] := by
    decide
  have hsecond : ∀ b1 : Byte, modBits b1 = modRegister ↔ 0xC0 ≤ b1.toNat ∧ b1.toNat < 0xC0 + 64 := by
    decide
  intro b0 b1 rest
  rw [exists_decode_ok_iff, exists_classify_ok_iff, InstrWord.mask_ofBytes_iff, ← hfirst b0, ← hsecond b1]
  exact ⟨Iff.rfl, Iff.rfl⟩

/-- Settles O11: each shape of window takes one row of the classifier, and only two bytes are looked at. -/
theorem classifierInFull : Obligations.ClassifierInFull := by
  unfold Obligations.ClassifierInFull
  refine ⟨fun window => ?_, fun v v' => classify_congr⟩
  rcases window with _ | ⟨b0, rest⟩
  · exact classify_empty
  by_cases hop : opcodeBits b0 = opcodePattern
  · have hop' := (opcodeBits_eq_pattern_iff_toNat b0).1 hop
    rcases rest with _ | ⟨b1, rest⟩
    · simp [classify_one_byte hop, hop']
    · by_cases hmod : modBits b1 = modRegister
      · have hmod' := (modBits_eq_register_iff_toNat b1).1 hmod
        simp [classify_match rest hop hmod, hop', hmod', directionBit_eq_decide, widthBit_eq_decide,
          regBits_eq_ofNat, rmBits_eq_ofNat]
      · have hmod' := mt (modBits_eq_register_iff_toNat b1).2 hmod
        simp [classify_mode_mismatch rest hop hmod, hop', hmod']
  · have hop' := mt (opcodeBits_eq_pattern_iff_toNat b0).2 hop
    simp [classify_opcode_mismatch rest hop, hop']

/-- Settles O12: the classifier in full, with the line of its fields written out; success is acceptance of
the first two bytes, and its report has count 2 and an 11-byte line. -/
theorem decoderInFull : Obligations.DecoderInFull := by
  unfold Obligations.DecoderInFull
  obtain ⟨hclassify, -⟩ := classifierInFull
  refine ⟨fun window => ?_, fun window => ?_, fun window n line h => ?_⟩
  · rw [decode, hclassify window]
    rcases window with _ | ⟨b0, rest⟩
    · rfl
    by_cases hop : b0.toNat / 4 % 64 = 34
    · rcases rest with _ | ⟨b1, rest⟩
      · simp [hop]
      · by_cases hmod : b1.toNat / 64 % 4 = 3
        · simp [hop, hmod, consumedBytes, formatLine, movLine, destination, source, mnemonicText,
            separatorText, newlineText]
        · simp [hop, hmod]
    · simp [hop]
  · rw [exists_decode_ok_iff]
    constructor
    · rintro ⟨f, hc⟩
      obtain ⟨b0, b1, rest, hwindow, hop, hmod, -⟩ := classify_ok_cases hc
      exact ⟨b0, b1, rest, hwindow, (InstrWord.accepted_ofBytes_iff b0 b1).2 ⟨hop, hmod⟩⟩
    · rintro ⟨b0, b1, rest, rfl, hword⟩
      rwa [exists_classify_ok_iff, ← InstrWord.accepted_ofBytes_iff]
  · obtain ⟨f, hc⟩ := exists_classify_of_decode_ok h
    rw [decode_of_classify_ok hc] at h
    obtain ⟨rfl, rfl⟩ := Prod.mk.inj (Except.ok.inj h)
    exact ⟨rfl, formatLine_length f⟩

theorem resolveContract_of_selector (sel : Selector) (w : Bool) :
    resolveContract sel.toNat w = .ok (resolve sel w) := by
  rw [resolveContract, if_pos sel.isLt, BitVec.ofNat_toNat, BitVec.setWidth_eq]

/-- Settles O6: the contract splits at 8, and the failure of a run is the decoder's, which is the
classifier's. -/
theorem lookupFailureNeverRaised : Obligations.LookupFailureNeverRaised := by
  unfold Obligations.LookupFailureNeverRaised
  have hdecode : ∀ window, decode window ≠ .error .lookupFailure := fun window =>
    mt (decode_eq_error_iff window _).1 (classify_ne_lookupFailure window)
  exact ⟨resolveContract_of_selector, fun sel w h => if_neg (Nat.not_lt.2 h), hdecode,
    fun image k r hreach hkind => hdecode _ (hreach.fault_is_decoders hkind)⟩

end Sys2Proof.Machine
end

section
/-! Names and lines (40_register_name_lut.md R59, 42_instruction_formatter.md R76, 43_mov_rm_r.md R83): a line
is the text of a width and two selectors, which can be read back from it, and each such triple has two
encodings, one for each value of the direction flag. -/

namespace Sys2Proof.Machine

theorem resolve_inj : ∀ (sel sel' : Selector) (w w' : Bool),
    resolve sel w = resolve sel' w' → sel = sel' ∧ w = w' := by
  decide

/-- Settles O5: the length holds by construction, and the 16 names are distinct. -/
theorem registerNamesTotalAndDistinct : Obligations.RegisterNamesTotalAndDistinct := by
  unfold Obligations.RegisterNamesTotalAndDistinct
  exact ⟨resolve_length, resolve_inj⟩

/-- Settles O17: both names are two bytes long, which fixes the position of every byte of the line. -/
theorem lineByteForByte : Obligations.LineByteForByte := by
  unfold Obligations.LineByteForByte
  refine ⟨fun f => ?_, by decide⟩
  have hdst := destination_length f
  have hsrc := source_length f
  obtain ⟨d0, d1, hd⟩ := List.length_eq_two.1 hdst
  obtain ⟨s0, s1, hs⟩ := List.length_eq_two.1 hsrc
  refine ⟨formatLine_length f, hdst, hsrc, ?_⟩
  simp [formatLine, movLine, hd, hs, mnemonicText, separatorText, newlineText]

/-- The width and the two selectors a line shows, destination first (42_instruction_formatter.md R74). -/
abbrev Operands := Bool × Selector × Selector

/-- The text of a width and two selectors. -/
def Operands.line (o : Operands) : Text := movLine (resolve o.2.1 o.1) (resolve o.2.2 o.1)

theorem movLine_inj {dst src dst' src' : Text} (h : movLine dst src = movLine dst' src')
    (hlen : dst.length = dst'.length) : dst = dst' ∧ src = src' := by
  simp only [movLine, List.append_assoc, List.append_cancel_left_eq] at h
  obtain ⟨hdst, hrest⟩ := List.append_inj h hlen
  exact ⟨hdst, List.append_cancel_right (List.append_cancel_left hrest)⟩

theorem Operands.line_injective : Function.Injective Operands.line := by
  rintro ⟨w, dst, src⟩ ⟨w', dst', src'⟩ h
  obtain ⟨hdst, hsrc⟩ := movLine_inj h rfl
  obtain ⟨rfl, rfl⟩ := resolve_inj _ _ _ _ hdst
  obtain ⟨rfl, -⟩ := resolve_inj _ _ _ _ hsrc
  rfl

theorem card_operands : Nat.card Operands = 128 := by
  have hsel : Nat.card Selector = 8 := by
    rw [Nat.card_congr BitVec.equivFin.toEquiv, Nat.card_fin]
    rfl
  rw [Nat.card_prod, Nat.card_prod, hsel, Nat.card_eq_fintype_card, Fintype.card_bool]

end Sys2Proof.Machine

namespace Sys2Proof
open Sys2Proof.Machine

/-- What the fields say of the line: the direction flag orders the two selectors. -/
def Fields.operands (f : Fields) : Operands :=
  if f.d then (f.w, f.reg, f.rm) else (f.w, f.rm, f.reg)

theorem Fields.operands_line (f : Fields) : f.operands.line = formatLine f := by
  rcases f with ⟨_ | _, w, reg, rm⟩ <;> rfl

/-- The direction flag and the operands determine the fields. -/
theorem Fields.eq_of_operands_eq {f g : Fields} (hd : f.d = g.d) (h : f.operands = g.operands) : f = g := by
  rcases f with ⟨d, w, reg, rm⟩
  rcases g with ⟨d', w', reg', rm'⟩
  obtain rfl : d = d' := hd
  cases d <;> simp_all [Fields.operands]

theorem Instr.line_eq_iff_operands (i j : Instr) :
    i.line = j.line ↔ i.fields.operands = j.fields.operands := by
  rw [Instr.line, Instr.line, ← Fields.operands_line, ← Fields.operands_line, Operands.line_injective.eq_iff]

theorem Instr.fields_injective : Function.Injective Instr.fields :=
  Function.LeftInverse.injective Instr.fields_instr

theorem Instr.mirror_direction (i : Instr) : i.mirror.fields.d = !i.fields.d := by
  cases i <;> rfl

theorem Instr.mirror_operands (i : Instr) : i.mirror.fields.operands = i.fields.operands := by
  cases i <;> rfl

theorem Instr.mirror_line (i : Instr) : i.mirror.line = i.line :=
  (Instr.line_eq_iff_operands _ _).2 i.mirror_operands

theorem Instr.mirror_ne (i : Instr) : i.mirror ≠ i := fun h => by
  have hd := i.mirror_direction
  rw [h] at hd
  exact (Bool.eq_not_self _).1 hd

/-- Of the two instructions that print the line of `i`, one has its direction flag and is `i`, the other
has the opposite one and is the mirror image. -/
theorem Instr.line_eq_iff (i j : Instr) : i.line = j.line ↔ j = i ∨ j = i.mirror := by
  constructor
  · intro h
    have hop := (Instr.line_eq_iff_operands i j).1 h
    by_cases hd : j.fields.d = i.fields.d
    · exact .inl (Instr.fields_injective (Fields.eq_of_operands_eq hd hop.symm))
    · have hd' : j.fields.d = i.mirror.fields.d := by
        rw [i.mirror_direction, Bool.eq_not]
        exact hd
      exact .inr (Instr.fields_injective
        (Fields.eq_of_operands_eq hd' (hop.symm.trans i.mirror_operands.symm)))
  · rintro (rfl | rfl)
    · rfl
    · exact i.mirror_line.symm

theorem Instr.range_line : Set.range Instr.line = Set.range Operands.line := by
  apply Set.Subset.antisymm
  · rintro _ ⟨i, rfl⟩
    exact ⟨i.fields.operands, i.fields.operands_line⟩
  · rintro _ ⟨⟨w, dst, src⟩, rfl⟩
    exact ⟨Fields.instr ⟨true, w, dst, src⟩, line_instr _⟩

end Sys2Proof

namespace Sys2Proof.Machine

@[simp] theorem line_length (i : Instr) : i.line.length = 11 := formatLine_length i.fields

/-- What each of the four instructions does: its line is appended and the offset advanced by 2. -/
theorem exec_eq_retire_line (i : Instr) (s : State) :
    exec i s = .next { s with run := s.run.retire i.line } := by
  conv_lhs => rw [← i.fields_instr, exec_instr]
  rfl

/-- Settles O18: the lines are the texts of the 128 operand triples, and an instruction and its mirror image
are the two encodings of one triple. -/
theorem twoEncodingsOneText : Obligations.TwoEncodingsOneText := by
  unfold Obligations.TwoEncodingsOneText
  refine ⟨Instr.line_eq_iff, Instr.mirror_ne, fun i s => ?sameEffect, ?count, fun i => ?oneWidth,
    fun b0 b1 rest rest' => decode_congr rfl rfl, fun i s => ?effect⟩
  case sameEffect => rw [exec_eq_retire_line, exec_eq_retire_line, i.mirror_line]
  case count => rw [Instr.range_line, Set.ncard_range_of_injective Operands.line_injective, card_operands]
  case oneWidth => exact ⟨_, _, _, i.fields.operands_line.symm⟩
  case effect => exact ⟨_, exec_eq_retire_line i s, rfl, rfl, rfl⟩

end Sys2Proof.Machine
end

section
/-! What the four instructions and a decode step do and leave alone (43_mov_rm_r.md, 44_stream_walker.md R87,
20_memory.md R33): the one append, where its bytes stand, and the append port. -/

namespace Sys2Proof.Machine

theorem eq_of_exec_next {i : Instr} {s t : State} (h : exec i s = .next t) :
    t = { s with run := s.run.retire i.line } := by
  rw [exec_eq_retire_line] at h
  injection h with h
  exact h.symm

theorem Memory.read_append_of_lt (m : Memory) (t : Text) {a : Nat} (h : a < m.size) :
    (m.append t).read a = m.read a :=
  Memory.read_append_outside m t (by omega)

/-- An append stores byte `j` of the text at address `size + j`. -/
theorem Memory.read_append_inside {m : Memory} (h : m.wf) (t : Text) (j : Nat) :
    (m.append t).read (m.size + j) = t[j]? := by
  rw [Memory.read_of_wf (Memory.append_wf t h), Memory.append_bytes, ← Memory.bytes_length,
    List.getElem?_append_right (by omega), Nat.add_sub_cancel_left]

/-- Settles O23: the next state is the retirement of the line, whose append stores to its own range only. -/
theorem movFrame : Obligations.MovFrame := by
  unfold Obligations.MovFrame
  intro reg rm i _ s t h
  obtain rfl := eq_of_exec_next h
  refine ⟨rfl, rfl, fun _ => rfl, rfl, ?_, fun a ha => ?_⟩
  · rw [RunState.retire_out, Memory.append_size, line_length]
  · rw [RunState.retire_out]
    exact Memory.read_append_outside _ _ (by rwa [line_length])

/-- Settles O24: each of the four appends its line, which keeps the canonical form and stands from the old
size on. -/
theorem movStoresItsLine : Obligations.MovStoresItsLine := by
  unfold Obligations.MovStoresItsLine
  intro reg rm i _ s hwf
  refine ⟨_, exec_eq_retire_line i s, Memory.append_wf i.line hwf, Memory.append_bytes _ _, fun j hj => ?_⟩
  have hread := Memory.read_append_inside hwf i.line j
  refine ⟨hread, ?_⟩
  rw [RunState.retire_out, hread, isSome_getElem?, line_length]
  exact hj

/-- Settles O25: the decoded instruction is the one the classified fields select. -/
theorem stepRunsDecodedInstruction : Obligations.StepRunsDecodedInstruction := by
  unfold Obligations.StepRunsDecodedInstruction
  intro s i hf hl hdecode
  rw [step_of_classify_ok hf hl (decodeInstr_eq_ok_iff.1 hdecode), i.fields_instr]

/-- Settles O27: the host's step puts the image back beside the run's outcome, an instruction writes the run
alone, and a start event holds the bytes it is given. -/
theorem imageIsParameterOfStep : Obligations.ImageIsParameterOfStep := by
  unfold Obligations.ImageIsParameterOfStep
  refine ⟨fun s t => besideImage_eq_next, fun i s t h => ?_, fun s image => ?_⟩
  · rw [eq_of_exec_next h]
  · rw [State.start_image]
    exact ⟨Memory.ofBytes_size image, Memory.ofBytes_bytes image, Memory.read_ofBytes image⟩

theorem step_halted {s : State} {f : Fault} (h : s.run.halted s.image.size = some f) :
    step s = .fault f := by
  rw [step, decodeStep_halted h, besideImage_fault]

theorem RunState.halted_of_done {r : RunState} {len : Nat} (hf : r.fault = none) (hl : len ≤ r.offset) :
    r.halted len = some .runDone := by
  simp only [RunState.halted, hf, if_neg (Nat.not_lt.2 hl)]

theorem RunState.halted_of_fault {r : RunState} {kind : FailureKind} (hf : r.fault = some kind)
    (len : Nat) : r.halted len = some (.runFailed kind) := by
  simp only [RunState.halted, hf]

/-- Settles O29: each terminal state is halted by its own name, and a halted step stops by that name. -/
theorem terminalStatesStopByName : Obligations.TerminalStatesStopByName := by
  unfold Obligations.TerminalStatesStopByName
  exact ⟨fun _ hf hl => step_halted (RunState.halted_of_done hf hl),
    fun _ _ hf => step_halted (RunState.halted_of_fault hf _)⟩

/-- Settles O3: no field of the start state depends on the state before, and over the empty image the offset
0 is the end of the image. -/
theorem resetIsStartOverEmptyImage : Obligations.ResetIsStartOverEmptyImage := by
  unfold Obligations.ResetIsStartOverEmptyImage
  exact ⟨fun _ => rfl, (RunState.phase_eq_done_iff _ _).2 ⟨rfl, le_rfl⟩,
    step_halted (RunState.halted_of_done rfl le_rfl), Memory.ofBytes_wf [], Memory.ofBytes_wf headerLine⟩

/-- Settles O30: retirement appends the 11 bytes of a line after those in `out`, failure entry writes `fault`
alone. -/
theorem stepFrame : Obligations.StepFrame := by
  unfold Obligations.StepFrame
  intro s t hstep
  obtain ⟨r, hr, rfl⟩ := step_cases hstep
  obtain ⟨hf, -, ⟨f, -, rfl⟩ | ⟨kind, -, rfl⟩⟩ := decodeStep_cases hr
  · refine ⟨rfl, hf, fun a ha => Memory.read_append_of_lt _ _ ha, .inl ⟨hf, rfl, ?_⟩⟩
    rw [RunState.retire_out, Memory.append_size, formatLine_length]
  · exact ⟨rfl, hf, fun _ _ => rfl, .inr ⟨by simp, rfl, rfl⟩⟩

section
variable {r : RunState} {image : Memory}

theorem RunState.exists_halted_of_not_enabled (h : ¬ (r.fault = none ∧ r.offset < image.size)) :
    ∃ f, r.halted image.size = some f :=
  Option.ne_none_iff_exists'.1 (mt (r.halted_eq_none_iff image.size).1 h)

theorem RunState.outPush_of_halted {f : Fault} (h : r.halted image.size = some f) :
    r.outPush image = none := by
  simp only [RunState.outPush, h]

variable (hf : r.fault = none) (hl : r.offset < image.size)
include hf hl

theorem RunState.outPush_of_classify_ok {f : Fields} (hc : classify (r.window image) = .ok f) :
    r.outPush image = some (formatLine f) := by
  simp only [RunState.outPush, (r.halted_eq_none_iff _).2 ⟨hf, hl⟩, decode_of_classify_ok hc]

theorem RunState.outPush_of_classify_error {kind : FailureKind}
    (hc : classify (r.window image) = .error kind) : r.outPush image = none := by
  simp only [RunState.outPush, (r.halted_eq_none_iff _).2 ⟨hf, hl⟩, decode_of_classify_error hc]

end

/-- Settles O34: the port shows the line of an accepted window, which is what retirement appends, and nothing
for a rejected window or a halted run. -/
theorem appendPortShowsWhatStepAppends : Obligations.AppendPortShowsWhatStepAppends := by
  unfold Obligations.AppendPortShowsWhatStepAppends
  refine ⟨fun s t hstep => ?_, fun s hs => ?_⟩
  · obtain ⟨r, hr, rfl⟩ := step_cases hstep
    obtain ⟨hf, hl, -⟩ := decodeStep_cases hr
    refine ⟨fun hok => ?_, fun hfail => ?_⟩
    · obtain ⟨f, hc, rfl⟩ := decodeStep_succeeded hr hok
      exact ⟨_, RunState.outPush_of_classify_ok hf hl hc, formatLine_length f, rfl⟩
    · obtain ⟨kind, hc, rfl⟩ := decodeStep_failed hr hfail
      exact ⟨RunState.outPush_of_classify_error hf hl hc, rfl⟩
  · obtain ⟨f, hhalted⟩ := RunState.exists_halted_of_not_enabled hs
    exact ⟨RunState.outPush_of_halted hhalted, RunState.imageReads_of_halted hhalted⟩

end Sys2Proof.Machine
end

section
/-! What of the image a decode step depends on (20_memory.md R29): its size and the bytes at the addresses
read, since those fix the classification of the window. -/

namespace Sys2Proof.Machine

theorem Memory.readFrom_succ_head (m : Memory) (a n : Nat) : (m.readFrom a (n + 1))[0]? = m.read a := by
  cases h : m.read a <;> simp [Memory.readFrom, h]

section
variable {r : RunState} {image : Memory}

theorem RunState.window_of_read_none (h : image.read r.offset = none) : r.window image = [] := by
  cases hn : image.size - r.offset <;> simp [RunState.window, hn, Memory.readFrom, h]

variable (hf : r.fault = none) (hl : r.offset < image.size)
include hf hl

theorem RunState.offset_mem_imageReads : r.offset ∈ r.imageReads image := by
  rw [RunState.imageReads_of_enabled hf hl]
  split <;> simp

theorem RunState.imageReads_of_opcode_match {b0 : Byte} (h0 : image.read r.offset = some b0)
    (hop : opcodeBits b0 = opcodePattern) (hsecond : r.offset + 1 < image.size) :
    r.imageReads image = [r.offset, r.offset + 1] := by
  rw [RunState.imageReads_of_enabled hf hl, if_pos ⟨by rw [h0, Option.map_some, hop], hsecond⟩]

/-- Images of one size with the same bytes at the addresses read have windows classified alike. -/
theorem RunState.classify_window_congr {other : Memory} (hsize : other.size = image.size)
    (hreads : ∀ a ∈ r.imageReads image, other.read a = image.read a) :
    classify (r.window other) = classify (r.window image) := by
  have hbyte0 := hreads _ (RunState.offset_mem_imageReads hf hl)
  cases h0 : image.read r.offset with
  | none => rw [RunState.window_of_read_none h0, RunState.window_of_read_none (hbyte0.trans h0)]
  | some b0 =>
    rw [RunState.window_of_read hl h0, RunState.window_of_read (hsize ▸ hl) (hbyte0.trans h0), hsize]
    by_cases hop : opcodeBits b0 = opcodePattern
    · cases hn : image.size - (r.offset + 1) with
      | zero => rfl
      | succ n =>
        have hreads' := RunState.imageReads_of_opcode_match hf hl h0 hop (by omega)
        have hbyte1 := hreads (r.offset + 1) (by simp [hreads'])
        refine classify_congr (by rw [List.getElem?_cons_zero, List.getElem?_cons_zero]) ?_
        rw [List.getElem?_cons_succ, List.getElem?_cons_succ, Memory.readFrom_succ_head,
          Memory.readFrom_succ_head, hbyte1]
    · rw [classify_opcode_mismatch _ hop, classify_opcode_mismatch _ hop]

end

/-- Settles O31: the addresses read by the two cases of R29; the step over the other image takes the same
branch, its window being classified alike. -/
theorem stepDependsOnlyOnBytesItReads : Obligations.StepDependsOnlyOnBytesItReads := by
  unfold Obligations.StepDependsOnlyOnBytesItReads
  refine ⟨fun s hf hl => ?_, fun s t other hstep hsize hreads => ?_⟩
  · rw [RunState.imageReads_of_enabled hf hl]
    split
    next hboth =>
      obtain ⟨hmatch, hsecond⟩ := hboth
      exact .inl ⟨rfl, hsecond, Option.map_eq_some_iff.1 hmatch⟩
    next hnot =>
      refine .inr ⟨rfl, or_iff_not_imp_left.2 fun hsecond b0 h0 hop => hnot ⟨?_, by omega⟩⟩
      rw [h0, Option.map_some, hop, opcodePattern]
  · obtain ⟨r, hr, rfl⟩ := step_cases hstep
    obtain ⟨hf, hl, hbranch⟩ := decodeStep_cases hr
    have hsame := RunState.classify_window_congr hf hl hsize hreads
    apply step_of_decodeStep
    obtain ⟨f, hc, rfl⟩ | ⟨kind, hc, rfl⟩ := hbranch
    · exact decodeStep_accept hf (hsize ▸ hl) (hsame.trans hc)
    · exact decodeStep_reject hf (hsize ▸ hl) (hsame.trans hc)

end Sys2Proof.Machine
end

section
/-! Placing a table word at the decode offset (log 9): the window then begins with its two bytes. -/

namespace Sys2Proof.Machine

theorem Memory.overwrite_bytes_drop (m : Memory) (a : Nat) (t : Text) :
    (m.overwrite a t).bytes.drop a = t ++ m.bytes.drop (a + t.length) := by
  have hprefix : (m.bytes.take a ++ List.replicate (a - m.size) 0#8).length = a := by
    rw [List.length_append, List.length_take, List.length_replicate, Memory.bytes_length]
    omega
  rw [Memory.overwrite, Memory.ofBytes_bytes, List.append_assoc, List.drop_left' hprefix]

theorem Memory.add_length_le_overwrite_size (m : Memory) (a : Nat) (t : Text) :
    a + t.length ≤ (m.overwrite a t).size := by
  rw [Memory.overwrite, Memory.ofBytes_size]
  simp only [List.length_append, List.length_take, List.length_replicate, Memory.bytes_length]
  omega

theorem decodeTableWord_eq_some_iff (nbits w : Nat) (i : Instr) :
    decodeTableWord nbits w = some i ↔ decodeInstr (tableBytes nbits w) = .ok i := by
  cases h : decodeInstr (tableBytes nbits w) <;> simp [decodeTableWord, h]

section
variable (s : State) (nbits w : Nat)

theorem State.withFetchWord_window :
    (s.withFetchWord nbits w).run.window (s.withFetchWord nbits w).image =
      tableBytes nbits w ++ s.image.bytes.drop (s.run.offset + 2) :=
  (RunState.window_of_wf _ (Memory.overwrite_wf _ _ _)).trans (Memory.overwrite_bytes_drop _ _ _)

theorem State.withFetchWord_enabled :
    (s.withFetchWord nbits w).run.offset < (s.withFetchWord nbits w).image.size :=
  Nat.lt_of_lt_of_le (Nat.lt_add_of_pos_right Nat.two_pos)
    (Memory.add_length_le_overwrite_size s.image s.run.offset (tableBytes nbits w))

end

/-- Settles O35: the placed word is what the window begins with, in a run that has not failed. -/
theorem fetchWordRunsNext : Obligations.FetchWordRunsNext := by
  unfold Obligations.FetchWordRunsNext
  intro s nbits w i hword
  refine ⟨rfl, rfl, ?_⟩
  have hplaced := decodeInstr_eq_ok_iff.1 ((decodeTableWord_eq_some_iff nbits w i).1 hword)
  have hc : classify ((s.withFetchWord nbits w).run.window (s.withFetchWord nbits w).image) =
      .ok i.fields := by
    rw [s.withFetchWord_window nbits w, ← hplaced]
    exact classify_congr rfl rfl
  rw [step_of_classify_ok rfl (s.withFetchWord_enabled nbits w) hc, i.fields_instr]

end Sys2Proof.Machine
end

section
/-! The invariant along a run (44_stream_walker.md R92) and its corollaries: accepted words, the layout of the
output space (20_memory.md R33), and the bounds of a finite implementation (92 D4, D9). -/

namespace Sys2Proof.Machine

section
variable {image : Text} {k : Nat}

theorem AcceptedUpTo.two_mul_le_length (h : AcceptedUpTo image k) : 2 * k ≤ image.length := by
  cases k with
  | zero => exact Nat.zero_le _
  | succ k =>
    obtain ⟨f, hc⟩ := h k k.lt_succ_self
    exact add_two_le_length_of_classify_ok hc

/-- Each accepted instruction has a line of 11 bytes. -/
theorem AcceptedUpTo.lineAt_length (h : AcceptedUpTo image k) {i : Nat} (hi : i < k) :
    (lineAt image (2 * i)).length = 11 := by
  obtain ⟨f, hc⟩ := h i hi
  rw [lineAt_of_classify_ok hc, formatLine_length]

theorem AcceptedUpTo.of_succ (h : AcceptedUpTo image (k + 1)) : AcceptedUpTo image k :=
  fun i hi => h i (Nat.lt_succ_of_lt hi)

theorem AcceptedUpTo.linesUpTo_length (h : AcceptedUpTo image k) : (linesUpTo image k).length = 11 * k := by
  induction k with
  | zero => rfl
  | succ k ih =>
    rw [linesUpTo, List.length_append, ih h.of_succ, h.lineAt_length k.lt_succ_self, Nat.mul_succ]

/-- Byte `j` of the line of instruction `i + 1` stands `11 i + j` bytes into the lines. -/
theorem AcceptedUpTo.linesUpTo_getElem? (h : AcceptedUpTo image k) {i j : Nat} (hi : i < k) (hj : j < 11) :
    (linesUpTo image k)[11 * i + j]? = (lineAt image (2 * i))[j]? := by
  induction k with
  | zero => exact absurd hi i.not_lt_zero
  | succ k ih =>
    have hlen := h.of_succ.linesUpTo_length
    rw [linesUpTo]
    rcases Nat.lt_succ_iff_lt_or_eq.1 hi with hbefore | rfl
    · rw [List.getElem?_append_left (by omega), ih h.of_succ hbefore]
    · rw [List.getElem?_append_right (by omega), hlen, Nat.add_sub_cancel_left]

end

/-- A step that succeeds has both bytes of its instruction in the image, and consumes them. -/
theorem decodeStep_succeeded_consumes {image : Text} {r t : RunState}
    (hstep : decodeStep (Memory.ofBytes image) r = .next t) (hf : t.fault = none) :
    t.offset = r.offset + 2 ∧ r.offset + 2 ≤ image.length := by
  obtain ⟨f, hc, rfl⟩ := decodeStep_succeeded hstep hf
  rw [RunState.window_ofBytes] at hc
  exact ⟨rfl, add_two_le_length_of_classify_ok hc⟩

section
variable {image : Text} {k : Nat} {r : RunState} (h : Reachable image k r)
include h

theorem Reachable.inv : Inv (Memory.ofBytes image) r := by
  induction h with
  | start => exact Inv.of_initial image
  | decoded _ hstep _ ih => exact ih.decodeStep hstep
  | failed _ hstep _ ih => exact ih.decodeStep hstep

theorem Reachable.offset_le : r.offset ≤ image.length :=
  Memory.ofBytes_size image ▸ h.inv.offsetLe

theorem Reachable.out_size_eq : r.out.size = 8 + 11 * k := by
  rw [h.inv.outSize, h.offset_eq, Nat.mul_div_cancel_left k Nat.two_pos]

theorem Reachable.wordAcceptedAt {j : Nat} (hj : j < k) : wordAcceptedAt image (2 * j) := by
  have hword := h.inv.wordsAccepted j (by rw [h.offset_eq]; omega)
  rwa [Memory.ofBytes_bytes] at hword

theorem Reachable.acceptedUpTo : AcceptedUpTo image k := fun i hi =>
  (wordAcceptedAt_iff image (2 * i)).1 (h.wordAcceptedAt hi)

theorem Reachable.out_read_eq (a : Nat) : r.out.read a = (headerLine ++ linesUpTo image k)[a]? := by
  rw [Memory.read_of_wf h.inv.outWf, h.out_bytes_eq]

end

/-- Settles O45: the invariant of the state, with `k` for half the offset, and the place of the last
instruction in the image. -/
theorem reachableStateInvariants : Obligations.ReachableStateInvariants := by
  unfold Obligations.ReachableStateInvariants
  intro image k r h
  have hle := h.offset_le
  have heven := h.inv.offsetEven
  refine ⟨⟨h.offset_eq, heven⟩, ⟨hle, fun t hstep hf => ?_, fun hdone => ?_⟩, h.out_size_eq,
    h.out_bytes_eq, fun kind => h.fault_is_decoders, fun j => h.wordAcceptedAt⟩
  · exact (decodeStep_succeeded_consumes hstep hf).2
  · obtain ⟨-, hge⟩ := (r.phase_eq_done_iff _).1 hdone
    have hend := hle.antisymm hge
    exact ⟨hend, hend ▸ heven⟩

/-- Settles O33: an append in canonical form, the one append of a step, whose branch does not depend on
`out`, and the header and the lines by their lengths. -/
theorem outputSpaceIsAppendOnly : Obligations.OutputSpaceIsAppendOnly := by
  unfold Obligations.OutputSpaceIsAppendOnly
  refine ⟨fun m text hwf => ?append, fun s t hstep => ?write, fun s t other hstep => ?noRead,
    fun image k r h => ?layout⟩
  case append =>
    exact ⟨Memory.append_wf text hwf, Memory.append_bytes m text,
      fun a ha => Memory.read_append_of_lt m text ha, fun j _ => Memory.read_append_inside hwf text j⟩
  case write =>
    obtain ⟨r, hr, rfl⟩ := step_cases hstep
    obtain ⟨-, -, ⟨f, -, rfl⟩ | ⟨kind, -, rfl⟩⟩ := decodeStep_cases hr
    · exact .inr ⟨_, rfl⟩
    · exact .inl rfl
  case noRead =>
    obtain ⟨r, hr, rfl⟩ := step_cases hstep
    obtain ⟨hf, hl, ⟨f, hc, rfl⟩ | ⟨kind, hc, rfl⟩⟩ := decodeStep_cases hr
    · have hother := decodeStep_accept (r := { s.run with out := other }) hf hl hc
      exact ⟨_, step_of_decodeStep hother, rfl, rfl, rfl⟩
    · have hother := decodeStep_reject (r := { s.run with out := other }) hf hl hc
      exact ⟨_, step_of_decodeStep hother, rfl, rfl, rfl⟩
  case layout =>
    refine ⟨fun j hj => ?_, fun n j hpos hn hj => ⟨?_, h.acceptedUpTo.lineAt_length (by omega)⟩⟩
    · rw [h.out_read_eq, List.getElem?_append_left hj]
    · have hindex : 8 + 11 * (n - 1) + j - headerLine.length = 11 * (n - 1) + j := by
        rw [headerLine_length]
        omega
      rw [h.out_read_eq, List.getElem?_append_right (by rw [headerLine_length]; omega), hindex,
        h.acceptedUpTo.linesUpTo_getElem? (by omega) hj]

/-- Settles O52: the offset and the one after a successful step are at most `L`, which fits the register. -/
theorem finiteOffsetRegisterNeverWraps : Obligations.FiniteOffsetRegisterNeverWraps := by
  unfold Obligations.FiniteOffsetRegisterNeverWraps
  intro aw image k r hfits h
  have hexact : ∀ o, o ≤ image.length → (BitVec.ofNat aw o).toNat = o := fun o ho => by
    have hpos := Nat.two_pow_pos aw
    rw [BitVec.toNat_ofNat, Nat.mod_eq_of_lt (by omega)]
  refine ⟨hexact _ h.offset_le, fun t hstep hf => ?_⟩
  obtain ⟨hnext, hle⟩ := decodeStep_succeeded_consumes hstep hf
  rw [hnext]
  exact ⟨BitVec.ofNat_add _ _, hexact _ hle⟩

end Sys2Proof.Machine
end

section
/-! Whole runs (44_stream_walker.md R94): the final state is the one after the accepted instructions at the
head of the image, with the decoder's failure if the image goes on, and no step leaves it. -/

namespace Sys2Proof.Machine

theorem runSteps_add (image : Memory) (m n : Nat) (r : RunState) :
    runSteps image (m + n) r = runSteps image n (runSteps image m r) := by
  induction m generalizing r with
  | zero => rw [Nat.zero_add, runSteps]
  | succ m ih =>
    by_cases henabled : ∃ t, decodeStep image r = .next t
    · obtain ⟨t, ht⟩ := henabled
      rw [Nat.add_right_comm, runSteps_next _ ht, runSteps_next _ ht, ih]
    · simp only [runSteps_terminal _ henabled]

theorem exists_first_not_accepted (image : Text) :
    ∃ j, AcceptedUpTo image j ∧ ¬ ∃ f, classify (image.drop (2 * j)) = .ok f := by
  classical
  have hpast : ∃ j, ¬ ∃ f, classify (image.drop (2 * j)) = .ok f := by
    refine ⟨image.length, fun ⟨f, hc⟩ => ?_⟩
    have hlt := lt_length_of_classify_ok hc
    omega
  exact ⟨Nat.find hpast, fun i hi => not_not.1 (Nat.find_min hpast hi), Nat.find_spec hpast⟩

section
variable {image : Text} {k : Nat} (hacc : AcceptedUpTo image k) (hlen : 2 * k = image.length)
include hacc hlen

theorem finalState_of_all_accepted : finalState image = RunState.afterInstrs image k := by
  have hbound : stepBound image.length = k + 1 := by rw [stepBound]; omega
  rw [finalState, hbound, runSteps_afterInstrs hacc]
  refine runSteps_terminal 1 ((decodeStep_terminal_iff _ _).2 (.inl ⟨rfl, ?_⟩))
  rw [Memory.ofBytes_size]
  exact hlen.ge

theorem finalState_phase_of_all_accepted : (finalState image).phase image.length = .done := by
  rw [finalState_of_all_accepted hacc hlen, RunState.phase_eq_done_iff]
  exact ⟨rfl, hlen.ge⟩

theorem disassemble_of_all_accepted : disassemble image = some (.ok (headerLine ++ linesUpTo image k)) := by
  rw [disassemble, RunState.result_of_done (finalState_phase_of_all_accepted hacc hlen),
    finalState_of_all_accepted hacc hlen, RunState.afterInstrs, Memory.ofBytes_bytes]

end

/-- The two ways a run ends: the image is used up, or the decoder rejects what stands at the offset. -/
theorem finalState_cases (image : Text) : ∃ j, AcceptedUpTo image j ∧
    ((2 * j = image.length ∧ finalState image = RunState.afterInstrs image j) ∨
     (2 * j < image.length ∧ ∃ kind, classify (image.drop (2 * j)) = .error kind ∧
       finalState image = (RunState.afterInstrs image j).raise kind)) := by
  obtain ⟨j, hacc, hnot⟩ := exists_first_not_accepted image
  refine ⟨j, hacc, ?_⟩
  rcases hacc.two_mul_le_length.eq_or_lt with hend | hlt
  · exact .inl ⟨hend, finalState_of_all_accepted hacc hend⟩
  · cases hc : classify (image.drop (2 * j)) with
    | ok f => exact absurd ⟨f, hc⟩ hnot
    | error kind => exact .inr ⟨hlt, kind, rfl, finalState_of_first_rejected hacc hlt hc⟩

theorem finalState_terminal (image : Text) :
    ¬ ∃ t, decodeStep (Memory.ofBytes image) (finalState image) = .next t := by
  rw [decodeStep_terminal_iff, Memory.ofBytes_size]
  obtain ⟨j, -, ⟨hend, hfinal⟩ | ⟨-, kind, -, hfinal⟩⟩ := finalState_cases image
  · exact .inl (hfinal ▸ ⟨rfl, hend.ge⟩)
  · exact .inr (by simp [hfinal])

theorem runSteps_eq_finalState {image : Text} {n : Nat} (h : stepBound image.length ≤ n) :
    runSteps (Memory.ofBytes image) n RunState.initial = finalState image := by
  obtain ⟨d, rfl⟩ := Nat.exists_eq_add_of_le h
  rw [runSteps_add]
  exact runSteps_terminal d (finalState_terminal image)

/-- Settles O2: a start event keeps nothing of the state before, and the final state has no step. -/
theorem runsDoNotDependOnEarlierRuns : Obligations.RunsDoNotDependOnEarlierRuns := by
  unfold Obligations.RunsDoNotDependOnEarlierRuns
  exact fun s s' image n => ⟨rfl, runSteps_eq_finalState⟩

/-- Settles O46: the two ways a run ends, with the number of accepted instructions for `j`. -/
theorem runOutcomeClosedForm : Obligations.RunOutcomeClosedForm := by
  unfold Obligations.RunOutcomeClosedForm
  refine fun image => ⟨fun n => runSteps_eq_finalState, fun hrunning => ?_, ?_⟩
  · apply finalState_terminal image
    rw [decodeStep_enabled_iff, Memory.ofBytes_size]
    exact (RunState.phase_eq_running_iff _ _).1 hrunning
  · obtain ⟨j, hacc, hend⟩ := finalState_cases image
    have hle := hacc.two_mul_le_length
    refine ⟨j, by omega, fun k hk => ⟨by omega, ?_⟩, hend.imp ?_ ?_⟩
    · obtain ⟨f, hc⟩ := hacc k hk
      exact ⟨_, decode_of_classify_ok hc⟩
    · rintro ⟨hlen, hfinal⟩
      exact ⟨hlen, by rw [hfinal, RunState.afterInstrs, hlen]⟩
    · rintro ⟨hlt, kind, hc, hfinal⟩
      exact ⟨hlt, kind, decode_of_classify_error hc, hfinal⟩

/-- A run is safe exactly when its accepted instructions use the image up. -/
theorem safeRun_iff (image : Text) : SafeRun image ↔ ∃ k, 2 * k = image.length ∧ AcceptedUpTo image k := by
  refine ⟨fun hsafe => ?_, fun ⟨k, hlen, hacc⟩ => finalState_phase_of_all_accepted hacc hlen⟩
  obtain ⟨j, hacc, ⟨hend, -⟩ | ⟨-, kind, -, hfinal⟩⟩ := finalState_cases image
  · exact ⟨j, hend, hacc⟩
  · obtain ⟨hf, -⟩ := (RunState.phase_eq_done_iff _ _).1 hsafe
    simp [hfinal] at hf

/-- The instructions of an image are its first two bytes and the instructions of what follows them. -/
theorem acceptedUpTo_cons_cons (b0 b1 : Byte) (rest : Text) (k : Nat) :
    AcceptedUpTo (b0 :: b1 :: rest) (k + 1) ↔
      (∃ f, classify (b0 :: b1 :: rest) = .ok f) ∧ AcceptedUpTo rest k := by
  refine ⟨fun h => ⟨h 0 k.succ_pos, fun i hi => h (i + 1) (Nat.succ_lt_succ hi)⟩,
    fun ⟨hfirst, hrest⟩ i hi => ?_⟩
  cases i with
  | zero => exact hfirst
  | succ i => exact hrest i (Nat.lt_of_succ_lt_succ hi)

theorem acceptedUpTo_zero (image : Text) : AcceptedUpTo image 0 :=
  fun i hi => absurd hi i.not_lt_zero

/-- The mask over consecutive words accepts the images that the classifier accepts word by word. -/
theorem imageAccepted_iff (image : Text) :
    imageAccepted image = true ↔ ∃ k, 2 * k = image.length ∧ AcceptedUpTo image k := by
  induction image using imageAccepted.induct with
  | case1 => exact iff_of_true rfl ⟨0, rfl, acceptedUpTo_zero []⟩
  | case2 b =>
    refine iff_of_false (by simp [imageAccepted]) fun ⟨k, hlen, _⟩ => ?_
    rw [List.length_singleton] at hlen
    omega
  | case3 b0 b1 rest ih =>
    rw [imageAccepted, Bool.and_eq_true, ih, InstrWord.accepted_ofBytes_iff,
      ← exists_classify_ok_iff b0 b1 rest]
    constructor
    · rintro ⟨hfirst, k, hlen, hrest⟩
      exact ⟨k + 1, by simp only [List.length_cons]; omega, (acceptedUpTo_cons_cons ..).2 ⟨hfirst, hrest⟩⟩
    · rintro ⟨k, hlen, hacc⟩
      simp only [List.length_cons] at hlen
      obtain ⟨k, rfl⟩ : ∃ k', k = k' + 1 := ⟨k - 1, by omega⟩
      obtain ⟨hfirst, hrest⟩ := (acceptedUpTo_cons_cons ..).1 hacc
      exact ⟨hfirst, k, by omega, hrest⟩

/-- Settles O47: both sides say that the words of the image are accepted and use it up. -/
theorem runSucceedsIffImageAccepted : Obligations.RunSucceedsIffImageAccepted := by
  unfold Obligations.RunSucceedsIffImageAccepted
  exact fun image => (safeRun_iff image).trans (imageAccepted_iff image).symm

/-- Settles O51: an image of odd length is not used up by instructions of two bytes, and a truncated window
is the last byte alone. -/
theorem oddLengthImageFails : Obligations.OddLengthImageFails := by
  unfold Obligations.OddLengthImageFails
  intro image hodd
  obtain ⟨j, -, ⟨hend, -⟩ | ⟨hlt, kind, hc, hfinal⟩⟩ := finalState_cases image
  · omega
  · rw [hfinal]
    refine ⟨RunState.phase_of_fault_some rfl _, hlt, fun hkind => ?_⟩
    obtain rfl : kind = .truncatedInstruction := Option.some.inj hkind
    rw [List.drop_eq_getElem_cons hlt, classify_eq_truncatedInstruction_iff, List.drop_eq_nil_iff] at hc
    show 2 * j = image.length - 1
    omega

end Sys2Proof.Machine
end

section
/-! The text of a run (30_encoding.md R56, 95_test_vectors.md V6, V7): the lines of an image in order, over an
image that is the encoding of a list of instructions and over any image that is used up; and the images that
fill the Output Buffer (92 D9). -/

namespace Sys2Proof.Machine

theorem linesUpTo_cons_cons (b0 b1 : Byte) (rest : Text) (k : Nat) :
    linesUpTo (b0 :: b1 :: rest) (k + 1) = lineAt (b0 :: b1 :: rest) 0 ++ linesUpTo rest k := by
  induction k with
  | zero => rw [linesUpTo, linesUpTo, linesUpTo, List.nil_append, List.append_nil]
  | succ k ih =>
    have hshift : lineAt (b0 :: b1 :: rest) (2 * (k + 1)) = lineAt rest (2 * k) := rfl
    rw [linesUpTo, ih, hshift, List.append_assoc, ← linesUpTo]

section
variable (program : List Instr) (tail : Text)

theorem length_flatMap_encode : (program.flatMap encode).length = 2 * program.length := by
  induction program with
  | nil => rfl
  | cons i program ih =>
    have hencode : (encode i).length = 2 := rfl
    rw [List.flatMap_cons, List.length_append, ih, hencode, List.length_cons]
    omega

/-- The instructions of a program are accepted, whatever follows the program. -/
theorem acceptedUpTo_program : AcceptedUpTo (program.flatMap encode ++ tail) program.length := by
  induction program with
  | nil => exact acceptedUpTo_zero _
  | cons i program ih =>
    rw [List.flatMap_cons, List.append_assoc]
    exact (acceptedUpTo_cons_cons ..).2 ⟨⟨_, classify_encode i _⟩, ih⟩

theorem linesUpTo_program :
    linesUpTo (program.flatMap encode ++ tail) program.length = program.flatMap Instr.line := by
  induction program with
  | nil => rfl
  | cons i program ih =>
    have hline : lineAt (encode i ++ (program.flatMap encode ++ tail)) 0 = i.line :=
      lineAt_of_classify_ok (classify_encode i _)
    rw [List.flatMap_cons, List.append_assoc, List.flatMap_cons, ← ih, ← hline]
    exact linesUpTo_cons_cons ..

end

/-- Settles O48: a program's encoding is used up by its instructions, whose lines are those of the image. -/
theorem concatenationDisassemblesInOrder : Obligations.ConcatenationDisassemblesInOrder := by
  unfold Obligations.ConcatenationDisassemblesInOrder
  intro program
  have hlen := (length_flatMap_encode program).symm
  have hacc := acceptedUpTo_program program []
  have hlines := linesUpTo_program program []
  rw [List.append_nil] at hacc hlines
  refine ⟨?_, ?_⟩
  · rw [disassemble_of_all_accepted hacc hlen, hlines, headerLine]
  · rw [finalState_of_all_accepted hacc hlen, RunState.afterInstrs]

/-- Settles O49: the empty image is used up by no instruction. -/
theorem emptyImageGivesHeader : Obligations.EmptyImageGivesHeader := by
  unfold Obligations.EmptyImageGivesHeader
  have hacc := acceptedUpTo_zero []
  refine ⟨disassemble_of_all_accepted hacc rfl, finalState_phase_of_all_accepted hacc rfl, ?_⟩
  rw [finalState_of_all_accepted hacc rfl, RunState.afterInstrs]

theorem AcceptedUpTo.exists_operands {image : Text} {k : Nat} (h : AcceptedUpTo image k) :
    ∃ os : List Operands, os.length = k ∧ linesUpTo image k = os.flatMap Operands.line := by
  induction k with
  | zero => exact ⟨[], rfl, rfl⟩
  | succ k ih =>
    obtain ⟨os, hlen, hlines⟩ := ih h.of_succ
    obtain ⟨f, hc⟩ := h k k.lt_succ_self
    refine ⟨os ++ [f.operands], by rw [List.length_append, hlen, List.length_singleton], ?_⟩
    rw [linesUpTo, hlines, lineAt_of_classify_ok hc, ← f.operands_line, List.flatMap_append,
      List.flatMap_singleton]

/-- A text is returned only for an image that is used up, and it is the header and all its lines. -/
theorem disassemble_ok_cases {image text : Text} (h : disassemble image = some (.ok text)) :
    ∃ k, 2 * k = image.length ∧ AcceptedUpTo image k ∧ text = headerLine ++ linesUpTo image k := by
  obtain ⟨k, hacc, ⟨hlen, -⟩ | ⟨-, kind, -, hfinal⟩⟩ := finalState_cases image
  · rw [disassemble_of_all_accepted hacc hlen] at h
    exact ⟨k, hlen, hacc, (Except.ok.inj (Option.some.inj h)).symm⟩
  · rw [disassemble, hfinal, RunState.result_of_fault (RunState.raise_fault _ kind)] at h
    simp at h

/-- Settles O50: the lines of an image that is used up are the texts of its instructions' operands. -/
theorem textOfSuccessfulRun : Obligations.TextOfSuccessfulRun := by
  unfold Obligations.TextOfSuccessfulRun
  intro image text h
  obtain ⟨k, hlen, hacc, rfl⟩ := disassemble_ok_cases h
  obtain ⟨os, hcount, hlines⟩ := hacc.exists_operands
  exact ⟨os, by omega, congrArg (headerLine ++ ·) hlines⟩

/-- A run over an image whose instructions leave at most one byte over fills the Output Buffer. -/
theorem finalState_out_size {image : Text} (h : AcceptedUpTo image (image.length / 2)) :
    (finalState image).out.size = Config.outCapacity image.length := by
  obtain ⟨j, hacc, hend⟩ := finalState_cases image
  have hle := hacc.two_mul_le_length
  have hall : j = image.length / 2 := by
    rcases hend with ⟨hlen, -⟩ | ⟨-, kind, hc, -⟩
    · omega
    · by_contra hne
      obtain ⟨f, hf⟩ := h j (by omega)
      simp [hf] at hc
  have hout : (finalState image).out = Memory.ofBytes (headerLine ++ linesUpTo image j) := by
    rcases hend with ⟨-, hfinal⟩ | ⟨-, kind, -, hfinal⟩
    · rw [hfinal, RunState.afterInstrs]
    · rw [hfinal, RunState.raise_out, RunState.afterInstrs]
  rw [hout, Memory.ofBytes_size, List.length_append, headerLine_length, hacc.linesUpTo_length, hall,
    Config.outCapacity]

/-- For every length, an image of that length whose instructions leave at most one byte over. -/
def fillingImage (len : Nat) : Text :=
  (List.replicate (len / 2) (Instr.movRm8R8 0#3 0#3)).flatMap encode ++ List.replicate (len % 2) 0x88#8

theorem fillingImage_length (len : Nat) : (fillingImage len).length = len := by
  rw [fillingImage, List.length_append, length_flatMap_encode, List.length_replicate, List.length_replicate]
  exact Nat.div_add_mod len 2

theorem acceptedUpTo_fillingImage (len : Nat) : AcceptedUpTo (fillingImage len) (len / 2) := by
  have hacc := acceptedUpTo_program (List.replicate (len / 2) (Instr.movRm8R8 0#3 0#3))
    (List.replicate (len % 2) 0x88#8)
  rwa [List.length_replicate] at hacc

/-- Settles O53: `k` instructions of two bytes fit in the image, and a filling image holds as many as fit. -/
theorem outputCapacityIsExact : Obligations.OutputCapacityIsExact := by
  unfold Obligations.OutputCapacityIsExact
  refine ⟨fun image k r h => ?_, fun len => ⟨fillingImage len, fillingImage_length len, ?_⟩⟩
  · have hle := h.acceptedUpTo.two_mul_le_length
    rw [h.out_size_eq, Config.outCapacity]
    omega
  · have hfill := finalState_out_size (image := fillingImage len)
    rw [fillingImage_length] at hfill
    exact hfill (acceptedUpTo_fillingImage len)

end Sys2Proof.Machine
end
